-- ==== Sys2Proof/Word.lean ====
section
/-! DEFINITION. Word types, and the fixed families of like things: four tracks, ten controls, two expanders, four
interrupt lines (spec/00_scope.md R8, R9; spec/10_state.md R30, R38). A family is a structure with one field each. -/

namespace Sys2Proof

/-- A Time or a duration: `TIME_W = 64` bits, unsigned (spec/00_scope.md R10). -/
abbrev Time := BitVec 64

/-- An expander snapshot: `SNAP_W = 16` bits (spec/00_scope.md R7, spec/30_encoding.md R98). -/
abbrev Snap := BitVec 16

/-- An operation-queue word: `OPWORD_W = 64` bits (spec/00_scope.md R10). -/
abbrev OpWord := BitVec 64

/-- A DAC sample: 12 bits, 0..4095 (spec/44_lfo.md R220). -/
abbrev Sample := BitVec 12

/-- A track index 0..3 (spec/00_scope.md R8). -/
inductive Track where
  | t0 | t1 | t2 | t3
deriving DecidableEq, Repr, Inhabited

/-- The tracks in the order of `for t in 0..3` (spec/00_scope.md R20). -/
def Track.all : List Track := [.t0, .t1, .t2, .t3]

/-- The 2-bit track index. -/
def Track.bits : Track → BitVec 2
  | .t0 => 0 | .t1 => 1 | .t2 => 2 | .t3 => 3

/-- The track of a 2-bit index; all four values are legal (spec/30_encoding.md R92). -/
def Track.ofBits (b : BitVec 2) : Track :=
  match b.toNat with
  | 0 => .t0 | 1 => .t1 | 2 => .t2 | _ => .t3

/-- The track after this one in the order 0, 1, 2, 3. -/
def Track.succ? : Track → Option Track
  | .t0 => some .t1 | .t1 => some .t2 | .t2 => some .t3 | .t3 => none

/-- One value for each track. -/
structure PerTrack (α : Type) where
  t0 : α
  t1 : α
  t2 : α
  t3 : α
deriving DecidableEq, Repr, Inhabited

namespace PerTrack
variable {α β : Type}

/-- The value of track `t`. -/
def get (q : PerTrack α) : Track → α
  | .t0 => q.t0 | .t1 => q.t1 | .t2 => q.t2 | .t3 => q.t3

/-- `q` with the value of track `t` replaced. -/
def set (q : PerTrack α) (t : Track) (x : α) : PerTrack α :=
  match t with
  | .t0 => { q with t0 := x }
  | .t1 => { q with t1 := x }
  | .t2 => { q with t2 := x }
  | .t3 => { q with t3 := x }

/-- The family whose value at `t` is `f t`. -/
def ofFn (f : Track → α) : PerTrack α := ⟨f .t0, f .t1, f .t2, f .t3⟩

/-- The same value for every track. -/
def const (x : α) : PerTrack α := ⟨x, x, x, x⟩

end PerTrack

/-- One of the two I/O expanders (`N_EXP = 2`, spec/00_scope.md R7). -/
inductive Expander where
  | e0 | e1
deriving DecidableEq, Repr, Inhabited

/-- One value for each expander. -/
structure PerExp (α : Type) where
  e0 : α
  e1 : α
deriving DecidableEq, Repr, Inhabited

namespace PerExp
variable {α : Type}

/-- The value of expander `e`. -/
def get (q : PerExp α) : Expander → α
  | .e0 => q.e0 | .e1 => q.e1

/-- `q` with the value of expander `e` replaced. -/
def set (q : PerExp α) (e : Expander) (x : α) : PerExp α :=
  match e with
  | .e0 => { q with e0 := x }
  | .e1 => { q with e1 := x }

end PerExp

/-- One of the four monitored lines (spec/60_exceptions.md R266). -/
inductive Line where
  | clk | rst | exp0 | exp1
deriving DecidableEq, Repr, Inhabited

/-- One value for each line. -/
structure PerLine (α : Type) where
  clk : α
  rst : α
  exp0 : α
  exp1 : α
deriving DecidableEq, Repr, Inhabited

namespace PerLine
variable {α : Type}

/-- The value of line `l`. -/
def get (q : PerLine α) : Line → α
  | .clk => q.clk | .rst => q.rst | .exp0 => q.exp0 | .exp1 => q.exp1

/-- `q` with the value of line `l` replaced. -/
def set (q : PerLine α) (l : Line) (x : α) : PerLine α :=
  match l with
  | .clk => { q with clk := x }
  | .rst => { q with rst := x }
  | .exp0 => { q with exp0 := x }
  | .exp1 => { q with exp1 := x }

end PerLine

/-- One of the ten controls; each has one encoder and one button (spec/00_scope.md R9). -/
inductive Control where
  | seed
  | length
  | offset (t : Track)
  | steps (t : Track)
deriving DecidableEq, Repr, Inhabited

/-- The ten controls, in the order the decoder emits their operations (spec/41_decode.md R156). -/
def Control.all : List Control :=
  [.seed, .length, .offset .t0, .steps .t0, .offset .t1, .steps .t1,
   .offset .t2, .steps .t2, .offset .t3, .steps .t3]

/-- One value for each control. -/
structure PerControl (α : Type) where
  seed : α
  length : α
  offset : PerTrack α
  steps : PerTrack α
deriving DecidableEq, Repr, Inhabited

namespace PerControl
variable {α β : Type}

/-- The value of control `c`. -/
def get (q : PerControl α) : Control → α
  | .seed => q.seed
  | .length => q.length
  | .offset t => q.offset.get t
  | .steps t => q.steps.get t

/-- `q` with the value of control `c` replaced. -/
def set (q : PerControl α) (c : Control) (x : α) : PerControl α :=
  match c with
  | .seed => { q with seed := x }
  | .length => { q with length := x }
  | .offset t => { q with offset := q.offset.set t x }
  | .steps t => { q with steps := q.steps.set t x }

/-- The family whose value at `c` is `f c`. -/
def ofFn (f : Control → α) : PerControl α :=
  ⟨f .seed, f .length, PerTrack.ofFn fun t => f (.offset t), PerTrack.ofFn fun t => f (.steps t)⟩

/-- The same value for every control. -/
def const (x : α) : PerControl α := ⟨x, x, PerTrack.const x, PerTrack.const x⟩

end PerControl

end Sys2Proof
end

