-- ==== Sys2Proof/Syntax.lean ====
section
/-! DEFINITION. The instructions: one constructor for each row of spec/opcode_table.json. -/

namespace Sys2Proof

/-- The block's instructions (spec/00_scope.md R2): the ten operations of the operation queue
(spec/30_encoding.md R91), the four codes of the gate command (R96) and the five capture events (R97).
Intervals and deltas are mathematical integers; `Instr.wellFormed` gives their ranges. -/
inductive Instr where
  /-- `Tick(interval)`, opc 0. -/
  | tick (interval : Nat)
  /-- `Reset`, opc 1. -/
  | reset
  /-- `Seed(delta)`, opc 2. -/
  | seed (delta : Int)
  /-- `SeedClick`, opc 3. -/
  | seedClick
  /-- `Length(delta)`, opc 4. -/
  | length (delta : Int)
  /-- `LengthClick`, opc 5. -/
  | lengthClick
  /-- `Offset(track, delta)`, opc 6. -/
  | offset (t : Track) (delta : Int)
  /-- `OffsetClick(track)`, opc 7. -/
  | offsetClick (t : Track)
  /-- `Steps(track, delta)`, opc 8. -/
  | steps (t : Track) (delta : Int)
  /-- `StepsClick(track)`, opc 9. -/
  | stepsClick (t : Track)
  /-- Gate command 0b00. -/
  | retain
  /-- Gate command 0b01. -/
  | set
  /-- Gate command 0b10. -/
  | clear
  /-- Gate command 0b11, reserved. -/
  | gcmdReserved
  /-- Capture event 0x00: the clock line's handler, with its timestamp. -/
  | clk (ts : Time)
  /-- Capture event 0x01: the reset line's handler. -/
  | rst
  /-- Capture event 0x02: one invocation that observes both lines. -/
  | rstclk (ts : Time)
  /-- Capture event 0x03: the handler of expander 0's line, with the port value read. -/
  | exp0 (v : Snap)
  /-- Capture event 0x04: the handler of expander 1's line, with the port value read. -/
  | exp1 (v : Snap)
deriving DecidableEq, Repr, Inhabited

end Sys2Proof
end

