-- ==== Sys2Proof/WellFormed.lean ====
section
/-! DEFINITION. Which instructions an encoding admits (spec/30_encoding.md R92). -/

namespace Sys2Proof

/-- A delta fits the signed 32-bit payload (spec/30_encoding.md R92). -/
def deltaFits (d : Int) : Bool := decide (-2 ^ 31 ≤ d) && decide (d < 2 ^ 31)

/-- An interval fits the unsigned 32-bit payload (spec/30_encoding.md R92). -/
def intervalFits (n : Nat) : Bool := decide (n < 2 ^ 32)

/-- An instruction is well formed when its operands fit their fields. Tracks, timestamps and snapshots fit by
their types. -/
def Instr.wellFormed : Instr → Bool
  | .tick n => intervalFits n
  | .reset => true
  | .seed d => deltaFits d
  | .seedClick => true
  | .length d => deltaFits d
  | .lengthClick => true
  | .offset _ d => deltaFits d
  | .offsetClick _ => true
  | .steps _ d => deltaFits d
  | .stepsClick _ => true
  | .retain => true
  | .set => true
  | .clear => true
  | .gcmdReserved => true
  | .clk _ => true
  | .rst => true
  | .rstclk _ => true
  | .exp0 _ => true
  | .exp1 _ => true

end Sys2Proof
end

