-- ==== Sys2Proof/Decode.lean ====
section
/-! DEFINITION. The decoder, total on every word of the three formats, and the encoder
(spec/30_encoding.md R90 to R97). -/

namespace Sys2Proof

/-- Raw instruction bits, before decoding, in one of the three formats. -/
inductive Raw where
  /-- Format OPW: one 64-bit operation-queue word (R90). -/
  | opw (w : OpWord)
  /-- Format GCMD: one 2-bit gate command (R96). -/
  | gcmd (c : BitVec 2)
  /-- Format CAPEVT: an 8-bit code with its operand beside it (R97); an operand of 64 bits holds a timestamp, or a
  snapshot in its low 16 bits. -/
  | capevt (code : BitVec 8) (operand : BitVec 64)
deriving DecidableEq, Repr

/-- Why bits decode to no instruction. -/
inductive DecodeError where
  /-- `opc` is 10..15 (R94, condition 1). -/
  | reservedOpcode
  /-- `rsv` is not 0 (R94, condition 2). -/
  | reservedBits
  /-- `trk` is not 0 in an operation that has no track (R94, condition 3). -/
  | strayTrack
  /-- `pay` is not 0 in an operation that has no payload (R94, condition 4). -/
  | strayPayload
  /-- A capture-event code 0x05..0xFF (R97). -/
  | reservedEvent
  /-- An operand beside a capture code that takes none, or one wider than the event's operand. -/
  | strayOperand
deriving DecidableEq, Repr

/-- Field `opc`, bits 3..0 (R90). -/
def opcField (w : OpWord) : BitVec 4 := w.extractLsb' 0 4

/-- Field `trk`, bits 5..4 (R90). -/
def trkField (w : OpWord) : BitVec 2 := w.extractLsb' 4 2

/-- Field `rsv`, bits 31..6 (R90). -/
def rsvField (w : OpWord) : BitVec 26 := w.extractLsb' 6 26

/-- Field `pay`, bits 63..32 (R90). -/
def payField (w : OpWord) : BitVec 32 := w.extractLsb' 32 32

/-- The four conditions of R94. -/
def wordWellFormed (w : OpWord) : Bool :=
  decide ((opcField w).toNat ≤ 9) &&
  decide (rsvField w = 0) &&
  (decide (6 ≤ (opcField w).toNat) || decide (trkField w = 0)) &&
  (!([1, 3, 5, 7, 9].contains (opcField w).toNat) || decide (payField w = 0))

/-- The operation `opc` selects, with its operands assembled (R91, R92, R95). -/
def operationOf (w : OpWord) : Except DecodeError Instr :=
  let t := Track.ofBits (trkField w)
  let d := (payField w).toInt
  match (opcField w).toNat with
  | 0 => .ok (.tick (payField w).toNat)
  | 1 => .ok .reset
  | 2 => .ok (.seed d)
  | 3 => .ok .seedClick
  | 4 => .ok (.length d)
  | 5 => .ok .lengthClick
  | 6 => .ok (.offset t d)
  | 7 => .ok (.offsetClick t)
  | 8 => .ok (.steps t d)
  | 9 => .ok (.stepsClick t)
  | _ => .error .reservedOpcode

/-- Which condition of R94 a word breaks first, if any. -/
def wordFlaw (w : OpWord) : Option DecodeError :=
  if 9 < (opcField w).toNat then some .reservedOpcode
  else if rsvField w ≠ 0 then some .reservedBits
  else if (opcField w).toNat < 6 ∧ trkField w ≠ 0 then some .strayTrack
  else if [1, 3, 5, 7, 9].contains (opcField w).toNat ∧ payField w ≠ 0 then some .strayPayload
  else none

/-- Decode an operation-queue word: every 64-bit word decodes to exactly one operation or is not well formed
(R94, R95). -/
def decodeOpw (w : OpWord) : Except DecodeError Instr :=
  match wordFlaw w with
  | some e => .error e
  | none => operationOf w

/-- Decode a gate command; all four codes decode, the last to the reserved command (R96). -/
def decodeGcmd (c : BitVec 2) : Instr :=
  match c.toNat with
  | 0 => .retain
  | 1 => .set
  | 2 => .clear
  | _ => .gcmdReserved

/-- Decode a capture event; codes 0x05..0xFF are refused (R97, spec/93_implementation_defined.md I14). -/
def decodeCapevt (code : BitVec 8) (operand : BitVec 64) : Except DecodeError Instr :=
  match code.toNat with
  | 0 => .ok (.clk operand)
  | 1 => if operand = 0 then .ok .rst else .error .strayOperand
  | 2 => .ok (.rstclk operand)
  | 3 => if operand.toNat < 2 ^ 16 then .ok (.exp0 (operand.setWidth 16)) else .error .strayOperand
  | 4 => if operand.toNat < 2 ^ 16 then .ok (.exp1 (operand.setWidth 16)) else .error .strayOperand
  | _ => .error .reservedEvent

/-- The decoder. -/
def decode : Raw → Except DecodeError Instr
  | .opw w => decodeOpw w
  | .gcmd c => .ok (decodeGcmd c)
  | .capevt code operand => decodeCapevt code operand

/-- `Enc`: `pay << 32 | trk << 4 | opc`, unused fields 0 (R93). -/
def opWord (opc : BitVec 4) (trk : BitVec 2) (pay : BitVec 32) : OpWord :=
  (pay.setWidth 64 <<< 32) ||| (trk.setWidth 64 <<< 4) ||| opc.setWidth 64

/-- The encoder: the bits of an instruction, written from the tables of R91, R96 and R97. -/
def encode : Instr → Raw
  | .tick n => .opw (opWord 0 0 (BitVec.ofNat 32 n))
  | .reset => .opw (opWord 1 0 0)
  | .seed d => .opw (opWord 2 0 (BitVec.ofInt 32 d))
  | .seedClick => .opw (opWord 3 0 0)
  | .length d => .opw (opWord 4 0 (BitVec.ofInt 32 d))
  | .lengthClick => .opw (opWord 5 0 0)
  | .offset t d => .opw (opWord 6 t.bits (BitVec.ofInt 32 d))
  | .offsetClick t => .opw (opWord 7 t.bits 0)
  | .steps t d => .opw (opWord 8 t.bits (BitVec.ofInt 32 d))
  | .stepsClick t => .opw (opWord 9 t.bits 0)
  | .retain => .gcmd 0
  | .set => .gcmd 1
  | .clear => .gcmd 2
  | .gcmdReserved => .gcmd 3
  | .clk ts => .capevt 0 ts
  | .rst => .capevt 1 0
  | .rstclk ts => .capevt 2 ts
  | .exp0 v => .capevt 3 (v.setWidth 64)
  | .exp1 v => .capevt 4 (v.setWidth 64)

/-- `Enc(op)` of R93 as a queue word: the word of an operation; 0 for the instructions that are no operation (the
input decoder never asks for one). -/
def opWordOf (i : Instr) : OpWord :=
  match encode i with
  | .opw w => w
  | .gcmd _ => 0
  | .capevt _ _ => 0

/-- The raw instruction whose bits are `w`, numbered as spec/opcode_table.json numbers them, and of the format that
`nbits` selects (DESIGN CHOICE, log entry 18): fewer than 8 bits are a gate command, 32 to 64 bits an
operation-queue word, any other count a capture event, whose operand lies above its 8-bit code. Bits above `nbits`
are 0. `none`: the bits do not fit the format. -/
def rawOfTableWord (nbits w : Nat) : Option Raw :=
  let w := w % 2 ^ nbits
  if nbits < 8 then
    if w < 4 then some (.gcmd (BitVec.ofNat 2 w)) else none
  else if 32 ≤ nbits ∧ nbits ≤ 64 then
    some (.opw (BitVec.ofNat 64 w))
  else if w < 2 ^ 72 then
    some (.capevt (BitVec.ofNat 8 w) (BitVec.ofNat 64 (w / 2 ^ 8)))
  else none

/-- The instruction the decoder reads from an instruction whose bits are `w`. -/
def decodeTableWord (nbits w : Nat) : Option Instr :=
  match rawOfTableWord nbits w with
  | none => none
  | some r =>
    match decode r with
    | .ok i => some i
    | .error _ => none

end Sys2Proof
end

