-- ==== Sys2Proof/Config.lean ====
section
/-! DEFINITION. What an implementation fixes and what the spec leaves free: the OPEN parameters (spec/00_scope.md R11),
the collaborator functions (R12 to R17), and the free values of a step (R21 "draw"). Every one is an opaque constant
without a body, so no proof can see its value and every claim holds for all of them (log entry 6). -/

namespace Sys2Proof

/-! ### Plain data the parameters range over -/

/-- Params (spec/10_state.md R40). -/
structure Params where
  /-- The seed value, 0..9999. -/
  seed : Nat
  /-- The global pattern length, 2..64. -/
  patternLength : Nat
  /-- Track lengths, 2..64. -/
  length : PerTrack Nat
  /-- Track steps, 0..length. -/
  steps : PerTrack Nat
  /-- Track offsets, 0..length-1. -/
  offset : PerTrack Nat
deriving DecidableEq, Repr, Inhabited

/-- `GenInput`: what GENERATE is given (spec/00_scope.md R13). -/
structure GenInput where
  /-- `SEED_BASE + seed`. -/
  seed : Int
  patternLength : Nat
  /-- (`offset`, `steps`, `length`) of each track. -/
  tracks : PerTrack (Nat × Nat × Nat)
deriving DecidableEq, Repr, Inhabited

/-- Where an encoder's two phases lie (spec/41_decode.md R145). -/
structure EncoderPins where
  exp : Expander
  a : Fin 16
  b : Fin 16
deriving DecidableEq, Repr, Inhabited

/-- Where a button's bit lies (spec/41_decode.md R145). -/
structure ButtonPin where
  exp : Expander
  bit : Fin 16
deriving DecidableEq, Repr, Inhabited

/-- `PIN_MAP` (spec/41_decode.md R145). -/
structure PinMap where
  enc : PerControl EncoderPins
  btn : PerControl ButtonPin
deriving DecidableEq, Repr, Inhabited

/-- What the environment gives one pass (spec/40_capture.md R125, R127; spec/10_state.md R30). -/
structure PassInput where
  now : Time
  mute : PerTrack Bool
  busErr : Bool
  /-- The dirty read's answer: `none` is the exact answer, `some b` a possibly stale one (R125). -/
  dirty : Option Bool
deriving DecidableEq, Repr, Inhabited

/-- One environment input (spec/70_reset_and_hazards.md R292, R305, R306; spec/30_encoding.md R97, R104). -/
inductive Stimulus where
  /-- Power-on reset, the block's only reset (R290). -/
  | powerOn
  /-- The boot step runs with this answer of its configuration checks (R292). -/
  | boot (ok : Bool)
  /-- A falling edge on a line (spec/60_exceptions.md R267). -/
  | edge (l : Line)
  /-- The capture agent takes the step of this capture event, given by its code and operand (R97). -/
  | capture (code : BitVec 8) (operand : BitVec 64)
  /-- The pass agent starts a pass with these inputs (spec/40_capture.md R127). -/
  | pass (p : PassInput)
  /-- Inside a pass: the pass agent takes one atomic step, before the inputs that follow (log entry 26). -/
  | go
  /-- Inside a pass: the input that follows falls here, between two atomic steps of the pass (log entry 26). -/
  | preempt
deriving DecidableEq, Repr, Inhabited

/-- The predictor's state type `PState`, as plain data: a natural number that encodes it (log entry 7). -/
abbrev PState := Nat

/-- The accelerator's state type `AState`, as plain data: a natural number that encodes it (log entry 7). -/
abbrev AState := Nat

namespace Config

/-! ### OPEN parameters (spec/00_scope.md R11). Parameters.lean puts the `raw` ones into their stated domain. -/

/-- `TIME_HZ` less 1, so that `TIME_HZ` is any positive integer. -/
opaque timeHzLessOne : Nat

/-- `SEED_BASE`. -/
opaque seedBase : Int

/-- `DEBOUNCE_HOLD`. -/
opaque debounceHold : Time

/-- `PIN_MAP`, before the check that no bit is used twice. -/
opaque rawPinMap : PinMap

/-- `DUTY[t]`, 0..100. -/
opaque duty : Track → Fin 101

/-- `GATE_ACTIVE_LEVEL`: whether a logically active gate line is electrically high. -/
opaque gateActiveHigh : Bool

/-- `INIT_PARAMS`, before the check that it is legal. -/
opaque rawInitParams : Params

/-- `FATE_LENGTHS`, before its entries outside the stated domain are dropped. -/
opaque rawFateLengths : List Nat

/-- `BOOT_SNAPSHOT[e]`, the port value read at boot. -/
opaque bootSnapshot : Expander → Snap

/-! ### Collaborator functions -/

/-- `PSTATE0` (R12). -/
opaque pstate0 : PState

/-- `PREDICT` (R12). -/
opaque predict : PState → Time → PState × Time

/-- `PRESET` (R12). -/
opaque preset : PState → PState

/-- The pattern part of `GENERATE` (R13). -/
opaque genPattern : GenInput → Track → List Bool

/-- The table part of `GENERATE` (R13): `LFO_TABLE_CAP = 64` values in 0..4095 for each track. -/
opaque genTable : GenInput → Track → Vector Sample 64

/-- `ASTATE0` (R14). -/
opaque astate0 : AState

/-- `ACCEL`, before its one assumed property is imposed (R14). -/
opaque rawAccel : AState → Int → Time → Int × AState

/-- `SINE` (R15). -/
opaque sine : BitVec 32 → Sample

/-- `TRI` (R15). -/
opaque tri : BitVec 32 → Sample

/-! ### Free values of a step, each applied to the counter `State.freeIdx` -/

/-- Fate's draws of the four lengths: which entry of the admitted set (spec/42_sequencer.md R193; log entry 8). -/
opaque fateLength : Nat → Track → Nat

/-- Fate's draws of the four steps, before reduction into `0..length` (R193). -/
opaque fateSteps : Nat → Track → Nat

/-- Fate's draws of the four offsets, before reduction into `0..length-1` (R193). -/
opaque fateOffset : Nat → Track → Nat

/-- Fate's draw of the seed, before reduction into 0..9999 (R193). -/
opaque fateSeed : Nat → Nat

/-- The environment's next input where none is queued (spec/70_reset_and_hazards.md R306; log entry 3). -/
opaque envInput : Nat → Stimulus

/-- A clear time whose exact value does not fit 64 bits (spec/45_gate.md R244; log entry 9). -/
opaque clearTimeBeyond : Nat → Time

/-- What the gate outputs show in the fault state (spec/60_exceptions.md R262; log entry 17). -/
opaque faultGateOut : Nat → Track → Bool

/-- What the DAC outputs show in the fault state (spec/60_exceptions.md R262; log entry 17). -/
opaque faultDac : Nat → List (Track × Sample)

end Config

end Sys2Proof
end

