-- ==== Sys2Proof/Machine/Types.lean ====
section
/-! DEFINITION. The named sets of values that the state's control fields range over (spec/10_state.md R41, R42, R48, R56;
spec/60_exceptions.md R260). A reserved code has no value here (log entry 25). -/

namespace Sys2Proof.Machine

/-- Track sync policy (spec/10_state.md R41). -/
inductive SyncPolicy where
  | sync | free | loop
deriving DecidableEq, Repr, Inhabited

/-- UI input mode: 20 values (spec/10_state.md R42). -/
inductive Mode where
  | run
  | seed
  | fate
  | length
  | offset (t : Track)
  | lfo (t : Track)
  | steps (t : Track)
  | trackSync (t : Track)
deriving DecidableEq, Repr, Inhabited

/-- LFO waveform mode: 12 values (spec/30_encoding.md R101). -/
inductive LfoMode where
  | random
  | sawUp
  | sawDown
  | sine
  | sine90
  | sine180
  | tri
  | tri90
  | tri180
  | square
  | square90
  | square180
deriving DecidableEq, Repr, Inhabited

/-- Fault codes 1..4 (spec/60_exceptions.md R260). Codes 0 and 5..15 are never raised and have no value here. -/
inductive FaultCode where
  | opqOverflow
  | reservedOp
  | busError
  | bootConfig
deriving DecidableEq, Repr, Inhabited

/-- One encoder's quadrature state (spec/10_state.md R51). -/
structure Encoder where
  /-- `qnib`: {previous pair, current pair}. -/
  nib : BitVec 4
  /-- `qroll`: the last two valid nibbles. -/
  roll : BitVec 8
deriving DecidableEq, Repr, Inhabited

/-- One button's state (spec/10_state.md R52). -/
structure Button where
  /-- `braw`: the last raw level. -/
  raw : Bool
  /-- `bchg`: when the raw level last changed. -/
  chg : Time
  /-- `bdeb`: the debounced level. -/
  deb : Bool
deriving DecidableEq, Repr, Inhabited

/-- Where the pass agent stands: before boot, between passes, or at a line of spec/40_capture.md R127
(log entry 2). -/
inductive PassPos where
  /-- Boot has not run (spec/70_reset_and_hazards.md R292). -/
  | boot
  /-- Between passes. -/
  | idle
  /-- Lines 3 and 4: decode the drained facts and push the words. -/
  | decode
  /-- Line 5: `Update`, one word of the operation queue in each step, then its end. -/
  | update
  /-- Line 6: `TimeStep`. -/
  | time
  /-- Line 7: `LfoSetOffset` for the four tracks. -/
  | lfo
  /-- Line 8: `GateTick` of track `t` selects its command. -/
  | gate (t : Track)
  /-- Line 8: the selected command is applied. -/
  | apply
deriving DecidableEq, Repr, Inhabited

end Sys2Proof.Machine
end

