-- ==== Sys2Proof/Machine/Parameters.lean ====
section
/-! DEFINITION. The constants the spec settles (spec/00_scope.md R7, R10), and the OPEN parameters and collaborator
functions brought into their stated domains (R11 to R14). Every value of the domain is the value of some raw parameter,
so nothing the spec allows is left out (log entry 6). -/

namespace Sys2Proof.Machine

/-! ### Settled constants (spec/00_scope.md R7) -/

/-- `OPQ_CAP`. -/
def opqCap : Nat := 64
/-- `EXPQ_CAP`. -/
def expqCap : Nat := 64
/-- `SEED_MAX`. -/
def seedMax : Nat := 9999
/-- `PLEN_MIN`. -/
def plenMin : Nat := 2
/-- `PLEN_MAX`. -/
def plenMax : Nat := 64
/-- `TLEN_MIN`. -/
def tlenMin : Nat := 2
/-- `TLEN_MAX`. -/
def tlenMax : Nat := 64
/-- `STEPS_MAX`. -/
def stepsMax : Nat := 64
/-- `U32_MAX`. -/
def u32Max : Nat := 4294967295
/-- `IDLE_S`. -/
def idleSeconds : Nat := 5

/-! ### Params -/

/-- A Params value is legal when every field lies in its range (spec/10_state.md R40). -/
abbrev paramsLegal (p : Params) : Prop :=
  p.seed ≤ 9999 ∧ 2 ≤ p.patternLength ∧ p.patternLength ≤ 64 ∧
  (2 ≤ p.length.t0 ∧ p.length.t0 ≤ 64 ∧ p.steps.t0 ≤ p.length.t0 ∧ p.offset.t0 < p.length.t0) ∧
  (2 ≤ p.length.t1 ∧ p.length.t1 ≤ 64 ∧ p.steps.t1 ≤ p.length.t1 ∧ p.offset.t1 < p.length.t1) ∧
  (2 ≤ p.length.t2 ∧ p.length.t2 ≤ 64 ∧ p.steps.t2 ≤ p.length.t2 ∧ p.offset.t2 < p.length.t2) ∧
  (2 ≤ p.length.t3 ∧ p.length.t3 ≤ 64 ∧ p.steps.t3 ≤ p.length.t3 ∧ p.offset.t3 < p.length.t3)

/-- The default `INIT_PARAMS` (spec/10_state.md R60). -/
def defaultParams : Params where
  seed := 0
  patternLength := 16
  length := PerTrack.const 16
  steps := PerTrack.const 0
  offset := PerTrack.const 0

/-- `INIT_PARAMS`: a legal Params value, whichever it is (spec/00_scope.md R11). -/
def initParams : Params :=
  if paramsLegal Config.rawInitParams then Config.rawInitParams else defaultParams

/-! ### Other OPEN parameters -/

/-- `TIME_HZ`, a positive integer (spec/00_scope.md R11). -/
def timeHz : Nat := Config.timeHzLessOne + 1

/-- `IDLE_TIMEOUT = IDLE_S * TIME_HZ` (spec/00_scope.md R11). -/
def idleTimeout : Nat := idleSeconds * timeHz

/-- `FATE_LENGTHS`: integers in 2..64 that are not powers of two (spec/00_scope.md R11). -/
def fateLengths : List Nat :=
  Config.rawFateLengths.filter fun n => decide (2 ≤ n ∧ n ≤ 64) && !([2, 4, 8, 16, 32, 64].contains n)

/-- The (expander, bit) places a `PIN_MAP` uses: two for each encoder, one for each button. -/
def pinPlaces (m : PinMap) : List (Expander × Fin 16) :=
  (Control.all.flatMap fun c => [((m.enc.get c).exp, (m.enc.get c).a), ((m.enc.get c).exp, (m.enc.get c).b)]) ++
  (Control.all.map fun c => ((m.btn.get c).exp, (m.btn.get c).bit))

/-- A `PIN_MAP` uses no bit twice (spec/41_decode.md R145, spec/70_reset_and_hazards.md R293). -/
abbrev pinMapLegal (m : PinMap) : Prop := (pinPlaces m).Nodup

/-- The default `PIN_MAP` of spec/41_decode.md R145. -/
def defaultPinMap : PinMap where
  enc :=
    { seed := ⟨.e0, 0, 1⟩
      length := ⟨.e0, 3, 4⟩
      offset := ⟨⟨.e0, 6, 7⟩, ⟨.e0, 12, 13⟩, ⟨.e1, 3, 4⟩, ⟨.e1, 9, 10⟩⟩
      steps := ⟨⟨.e0, 9, 10⟩, ⟨.e1, 0, 1⟩, ⟨.e1, 6, 7⟩, ⟨.e1, 12, 13⟩⟩ }
  btn :=
    { seed := ⟨.e0, 2⟩
      length := ⟨.e0, 5⟩
      offset := ⟨⟨.e0, 8⟩, ⟨.e0, 14⟩, ⟨.e1, 5⟩, ⟨.e1, 11⟩⟩
      steps := ⟨⟨.e0, 11⟩, ⟨.e1, 2⟩, ⟨.e1, 8⟩, ⟨.e1, 14⟩⟩ }

/-- `PIN_MAP`: an assignment that uses no bit twice, whichever it is (spec/41_decode.md R145). -/
def pinMap : PinMap :=
  if pinMapLegal Config.rawPinMap then Config.rawPinMap else defaultPinMap

/-! ### Collaborators -/

/-- `ACCEL` with its assumed property: for a raw count `r ≠ 0` the output keeps the sign of `r` and is at least as
large; for `r = 0` it is free (spec/00_scope.md R14). -/
def accel (a : AState) (r : Int) (now : Time) : Int × AState :=
  let out := Config.rawAccel a r now
  if r = 0 ∨ (out.1.sign = r.sign ∧ r.natAbs ≤ out.1.natAbs) then out else (r, out.2)

/-- The input of GENERATE for a Params value (spec/00_scope.md R13, spec/42_sequencer.md R190). -/
def genInput (p : Params) : GenInput where
  seed := Config.seedBase + (p.seed : Int)
  patternLength := p.patternLength
  tracks := PerTrack.ofFn fun t => (p.offset.get t, p.steps.get t, p.length.get t)

/-- `patterns` of a Params value (spec/42_sequencer.md R190). -/
def patternsOf (p : Params) : PerTrack (List Bool) := PerTrack.ofFn (Config.genPattern (genInput p))

/-- `table` of a Params value (spec/42_sequencer.md R190). -/
def tablesOf (p : Params) : PerTrack (Vector Sample 64) := PerTrack.ofFn (Config.genTable (genInput p))

/-- Distance per tick of a length: `U32_MAX div length` (spec/10_state.md R46, spec/42_sequencer.md R190). -/
def distancePerTick (length : Nat) : BitVec 32 := BitVec.ofNat 32 (u32Max / length)

/-- `dpt` of a Params value (spec/42_sequencer.md R190). -/
def dptOf (p : Params) : PerTrack (BitVec 32) := PerTrack.ofFn fun t => distancePerTick (p.length.get t)

/-- A button at boot: its raw and debounced levels are its bit of `BOOT_SNAPSHOT` (spec/10_state.md R59). -/
def bootButton (pin : ButtonPin) : Button :=
  let x := (Config.bootSnapshot pin.exp).getLsbD pin.bit.val
  { raw := x, chg := 0, deb := x }

end Sys2Proof.Machine
end

