-- ==== Sys2Proof/Machine/State.lean ====
section
/-! DEFINITION. The machine's state, the reasons a step can stop, and the state after reset
(spec/10_state.md R35 to R54, R59). -/

namespace Sys2Proof.Machine

/-- Why the machine stops with a fault. -/
inductive Fault where
  /-- Raised by every step and every meaning of a machine whose fault state is set: "no agent takes another step"
  (spec/60_exceptions.md R262, spec/93_implementation_defined.md I32). Safe: the spec says the machine is stuck. -/
  | halted (c : FaultCode)
deriving DecidableEq, Repr

/-- Why a step has no meaning. -/
inductive Refusal where
  /-- Raised by `exec` for an instruction that has no meaning in this model. Safe. -/
  | notModelled (mnemonic : String)
  /-- Raised by a capture event's meaning when its line has no pending interrupt: the trigger of its rule does not
  hold (spec/40_capture.md R120 to R123), so the capture agent cannot take that step. Safe. -/
  | captureNotPending (l : Line)
  /-- Raised by the step on a capture-event record that decodes to nothing: "a stimulus reader refuses them"
  (spec/30_encoding.md R97, spec/93_implementation_defined.md I14). Safe. -/
  | reservedEvent (e : DecodeError)
  /-- Raised by the step on a `now` or a `ts` that breaks the order of spec/40_capture.md R128: the environment must
  not produce it and it "has no step in a model" (spec/70_reset_and_hazards.md R306). Safe. -/
  | timeOrder
  /-- Raised by the step on a capture or a pass before boot has run: the agents have not started
  (spec/70_reset_and_hazards.md R292 line 6). Safe. -/
  | notBooted
  /-- Raised by the step on a boot after boot: boot is one step, before any other (R292). Safe. -/
  | alreadyBooted
deriving DecidableEq, Repr

/-- Everything the spec gives the machine, and the model's own fields after the last heading. -/
structure State where
  -- Capture domain (spec/10_state.md R35 to R38)
  clkPending : Bool
  clkTs : Time
  rstPending : Bool
  expq : PerExp (List Snap)
  irqPend : PerLine Bool
  /-- Whether boot has enabled the four interrupts (spec/60_exceptions.md R270). -/
  irqEnabled : Bool
  -- Operation queue and Params (R39, R40)
  opq : List OpWord
  params : Params
  -- Control fields (R41, R42, R48)
  sync : PerTrack SyncPolicy
  mode : Mode
  lfoMode : PerTrack LfoMode
  -- Playhead (R43)
  tickCount : BitVec 32
  gph : BitVec 32
  tph : PerTrack Nat
  resetArmed : Bool
  -- Tempo and UI timing (R44, R45)
  pst : PState
  predicted : Time
  lastTickTime : Time
  lastAction : Time
  -- Derived pattern state and phase (R46, R47)
  patterns : PerTrack (List Bool)
  dpt : PerTrack (BitVec 32)
  phase : PerTrack (BitVec 32)
  -- LFO (R48)
  table : PerTrack (Vector Sample 64)
  lastOut : PerTrack (Option Sample)
  gateHigh : PerTrack Bool
  randIdx : PerTrack Nat
  -- Gate (R49)
  level : PerTrack Bool
  clearAt : PerTrack (Option Time)
  duty : PerTrack Nat
  lastGateIndex : PerTrack (Option Nat)
  -- Decoder (R50 to R53)
  lastClkTs : Time
  expCache : PerExp Snap
  enc : PerControl Encoder
  btn : PerControl Button
  ast : AState
  -- Fault state (R54)
  fault : Option FaultCode
  -- Values local to the pass in progress (spec/40_capture.md R126, R127; spec/42_sequencer.md R170; spec/45_gate.md R240)
  now : Time
  mute : PerTrack Bool
  dRst : Bool
  dClk : Bool
  dTs : Time
  dSnap : PerExp (List Snap)
  regen : Bool
  acted : Bool
  ticked : Bool
  gateTrk : Track
  gateCmd : BitVec 2
  -- The model's own: position in the pass, output events, inputs to come, draw counter
  pos : PassPos
  dac : List (Track × Sample)
  stim : List Stimulus
  freeIdx : Nat
deriving DecidableEq, Repr, Inhabited

/-- The machine right after power-on reset (spec/10_state.md R59, spec/70_reset_and_hazards.md R290, R291); the pass
agent is about to take the boot step. The pass-local values and the model's own fields are empty or zero
(log entry 13). -/
def State.reset : State where
  clkPending := false
  clkTs := 0
  rstPending := false
  expq := ⟨[], []⟩
  irqPend := ⟨false, false, false, false⟩
  irqEnabled := false
  opq := []
  params := initParams
  sync := PerTrack.const .sync
  mode := .run
  lfoMode := PerTrack.const .random
  tickCount := 0
  gph := 0
  tph := PerTrack.const 0
  resetArmed := true
  pst := Config.pstate0
  predicted := 0
  lastTickTime := 0
  lastAction := 0
  patterns := patternsOf initParams
  dpt := dptOf initParams
  phase := PerTrack.const 0
  table := tablesOf initParams
  lastOut := PerTrack.const none
  gateHigh := PerTrack.const false
  randIdx := PerTrack.const 0
  level := PerTrack.const false
  clearAt := PerTrack.const none
  duty := PerTrack.ofFn fun t => (Config.duty t).val
  lastGateIndex := PerTrack.const none
  lastClkTs := 0
  expCache := ⟨Config.bootSnapshot .e0, Config.bootSnapshot .e1⟩
  enc := PerControl.const ⟨0, 0⟩
  btn := PerControl.ofFn fun c => bootButton (pinMap.btn.get c)
  ast := Config.astate0
  fault := none
  now := 0
  mute := PerTrack.const false
  dRst := false
  dClk := false
  dTs := 0
  dSnap := ⟨[], []⟩
  regen := false
  acted := false
  ticked := false
  gateTrk := .t0
  gateCmd := 0
  pos := .boot
  dac := []
  stim := []
  freeIdx := 0

end Sys2Proof.Machine
end

