-- ==== Sys2Proof/Machine/Ops.lean ====
section
/-! DEFINITION. The shared operations: taking a fault (the block's one exception), the fault guard, the queues, the
output events, and the effects of the capture handlers (spec/00_scope.md R21, spec/20_memory.md R75, R76,
spec/40_capture.md R120 to R123, spec/60_exceptions.md R262). -/

namespace Sys2Proof.Machine

/-- The outcomes of a step of this machine. -/
abbrev Out := Host.Outcome State Fault Refusal

/-- Taking an exception: `raise Fault(c)`. It records the code and nothing else, and ends the step; every write made
earlier in the step stays (spec/60_exceptions.md R260, R262). There is no return from it: nothing clears it before
power-on reset (R262, spec/10_state.md R54), and a capture has no return instruction (R274). -/
@[simps] def raise (c : FaultCode) (s : State) : State := { s with fault := some c }

/-- "Once `fault ≠ none`, no agent takes another step" (spec/60_exceptions.md R262): `out` is taken only by a machine
that has no fault. -/
def guarded (s : State) (out : Out) : Out :=
  match s.fault with
  | none => out
  | some c => .fault (.halted c)

/-- One step and then another: the second is taken only from a next state. -/
def andThen (o : Out) (f : State → Out) : Out :=
  match o with
  | .next s => f s
  | .fault r => .fault r
  | .refused r => .refused r

/-! ### Queues -/

/-- `ExpPush` on one queue: at capacity the oldest entry is dropped first (spec/20_memory.md R75). -/
def expPush (q : List Snap) (v : Snap) : List Snap :=
  (if q.length = expqCap then q.drop 1 else q) ++ [v]

/-- `Push(opq, w)` for each word in order: a push to a full queue raises OPQ_OVERFLOW, leaves the queue unchanged and
ends the step (spec/20_memory.md R76, spec/40_capture.md R127 line 4). -/
def pushAll : List OpWord → State → State
  | [], s => s
  | w :: ws, s =>
    if opqCap ≤ s.opq.length then raise .opqOverflow s
    else pushAll ws { s with opq := s.opq ++ [w] }

/-! ### Outputs -/

/-- `EmitDAC(t, v)` (spec/00_scope.md R21). -/
@[simps] def emitDac (t : Track) (v : Sample) (s : State) : State := { s with dac := s.dac ++ [(t, v)] }

/-- `level[t] <- l; SetGateLine(t, l)`: gate output `t` follows `level[t]` (spec/10_state.md R31, spec/45_gate.md
R248). -/
@[simps] def setGateLine (t : Track) (l : Bool) (s : State) : State := { s with level := s.level.set t l }

/-! ### The capture handlers' effects -/

/-- The clock handler: clears the line's pending flag, latches the fact and the newest timestamp
(spec/40_capture.md R120). -/
@[simps] def captureClk (ts : Time) (s : State) : State :=
  { s with irqPend := s.irqPend.set .clk false, clkPending := true, clkTs := ts }

/-- The reset handler (spec/40_capture.md R121). -/
@[simps] def captureRst (s : State) : State :=
  { s with irqPend := s.irqPend.set .rst false, rstPending := true }

/-- The interrupt line of an expander (spec/60_exceptions.md R266). -/
def expLine : Expander → Line
  | .e0 => .exp0
  | .e1 => .exp1

/-- The handler of expander `e`'s line (spec/40_capture.md R123). -/
@[simps] def captureExp (e : Expander) (v : Snap) (s : State) : State :=
  { s with irqPend := s.irqPend.set (expLine e) false, expq := s.expq.set e (expPush (s.expq.get e) v) }

end Sys2Proof.Machine
end

