-- ==== Sys2Proof/Machine/Flags.lean ====
section
/-! DEFINITION. The Boolean state elements that one event sets and another clears (spec/10_state.md R55): interrupt
pending flags, the dirty check, the accept and regenerate marks of an update. -/

namespace Sys2Proof.Machine

/-- A falling edge on a line sets its pending flag once boot has enabled the interrupts; an edge while the flag is set
changes nothing (spec/60_exceptions.md R267, R268, R270). -/
def lineEdge (l : Line) (s : State) : State :=
  if s.irqEnabled then { s with irqPend := s.irqPend.set l true } else s

/-- `pending`: whether any captured fact waits for a drain (spec/40_capture.md R125). -/
def factsPending (s : State) : Bool :=
  s.clkPending || s.rstPending || !s.expq.e0.isEmpty || !s.expq.e1.isEmpty

/-- The capture of a line is taken only while its flag is set (spec/40_capture.md R120 to R123); otherwise the step
does not exist. -/
def whenPending (l : Line) (s : State) (out : Out) : Out :=
  if s.irqPend.get l then out else .refused (.captureNotPending l)

/-- `acted <- true`: the operation is accepted (spec/42_sequencer.md R171). -/
@[simps] def accept (s : State) : State := { s with acted := true }

/-- `regen <- true` (spec/42_sequencer.md R170). -/
@[simps] def markRegen (s : State) : State := { s with regen := true }

end Sys2Proof.Machine
end

