-- ==== Sys2Proof/Machine/Capture.lean ====
section
/-! DEFINITION. The capture events: one atomic step of the capture agent each (spec/40_capture.md R120 to R124). -/

namespace Sys2Proof.Machine

/-- CLK (R120). -/
def execClk (ts : Time) (s : State) : Out :=
  guarded s (whenPending .clk s (.next (captureClk ts s)))

/-- RST (R121). -/
def execRst (s : State) : Out :=
  guarded s (whenPending .rst s (.next (captureRst s)))

/-- RSTCLK: the effect of RST, then the effect of CLK, in one atomic step (R122). -/
def execRstclk (ts : Time) (s : State) : Out :=
  guarded s (whenPending .rst s (whenPending .clk s (.next (captureClk ts (captureRst s)))))

/-- EXP0 (R123). -/
def execExp0 (v : Snap) (s : State) : Out :=
  guarded s (whenPending .exp0 s (.next (captureExp .e0 v s)))

/-- EXP1 (R123). -/
def execExp1 (v : Snap) (s : State) : Out :=
  guarded s (whenPending .exp1 s (.next (captureExp .e1 v s)))

end Sys2Proof.Machine
end

