-- ==== Sys2Proof/Machine/Codes.lean ====
section
/-! DEFINITION. The codes of the control fields (spec/30_encoding.md R99, R100, R101; spec/60_exceptions.md R260) and
cycling through them. -/

namespace Sys2Proof.Machine

/-- The 5-bit InputMode code: kind in bits 4..2, track in bits 1..0 (R99). -/
def modeCode : Mode → BitVec 5
  | .run => 0b00000
  | .seed => 0b00100
  | .fate => 0b01000
  | .length => 0b01100
  | .offset t => 0b100#3 ++ t.bits
  | .lfo t => 0b101#3 ++ t.bits
  | .steps t => 0b110#3 ++ t.bits
  | .trackSync t => 0b111#3 ++ t.bits

/-- The mode of a code; kinds 0 to 3 with nonzero track bits are reserved (R99). -/
def modeOfCode (c : BitVec 5) : Option Mode :=
  let trk := c.extractLsb' 0 2
  let t := Track.ofBits trk
  match (c.extractLsb' 2 3).toNat with
  | 0 => if trk = 0 then some .run else none
  | 1 => if trk = 0 then some .seed else none
  | 2 => if trk = 0 then some .fate else none
  | 3 => if trk = 0 then some .length else none
  | 4 => some (.offset t)
  | 5 => some (.lfo t)
  | 6 => some (.steps t)
  | _ => some (.trackSync t)

/-- The 2-bit TrackSync code (R100). -/
def syncCode : SyncPolicy → BitVec 2
  | .sync => 0 | .free => 1 | .loop => 2

/-- The policy of a TrackSync code; 3 is reserved (R100). -/
def syncOfCode (c : BitVec 2) : Option SyncPolicy :=
  match c.toNat with
  | 0 => some .sync
  | 1 => some .free
  | 2 => some .loop
  | _ => none

/-- Cycling a policy by a delta: `(sync + d) mod 3`, Euclidean (R100, spec/00_scope.md R19). -/
def cycleSync (p : SyncPolicy) (d : Int) : SyncPolicy :=
  (syncOfCode (BitVec.ofInt 2 ((((syncCode p).toNat : Int) + d) % 3))).getD .sync

/-- The 4-bit LFO mode code (R101). -/
def lfoCode : LfoMode → BitVec 4
  | .random => 0
  | .sawUp => 1
  | .sawDown => 2
  | .sine => 3
  | .sine90 => 4
  | .sine180 => 5
  | .tri => 6
  | .tri90 => 7
  | .tri180 => 8
  | .square => 9
  | .square90 => 10
  | .square180 => 11

/-- The waveform mode of a code; 12..15 are reserved (R101). -/
def lfoOfCode (c : BitVec 4) : Option LfoMode :=
  match c.toNat with
  | 0 => some .random
  | 1 => some .sawUp
  | 2 => some .sawDown
  | 3 => some .sine
  | 4 => some .sine90
  | 5 => some .sine180
  | 6 => some .tri
  | 7 => some .tri90
  | 8 => some .tri180
  | 9 => some .square
  | 10 => some .square90
  | 11 => some .square180
  | _ => none

/-- Cycling a waveform mode by a delta: `(lfo_mode + d) mod 12`, Euclidean (R101). -/
def cycleLfo (m : LfoMode) (d : Int) : LfoMode :=
  (lfoOfCode (BitVec.ofInt 4 ((((lfoCode m).toNat : Int) + d) % 12))).getD .random

/-- The 4-bit fault code (spec/60_exceptions.md R260). -/
def faultCodeBits : FaultCode → BitVec 4
  | .opqOverflow => 1
  | .reservedOp => 2
  | .busError => 3
  | .bootConfig => 4

/-- The fault of a code; 0 is no fault and 5..15 are reserved (R260). -/
def faultOfCode (c : BitVec 4) : Option FaultCode :=
  match c.toNat with
  | 1 => some .opqOverflow
  | 2 => some .reservedOp
  | 3 => some .busError
  | 4 => some .bootConfig
  | _ => none

end Sys2Proof.Machine
end

