-- ==== Sys2Proof/Machine/Operands.lean ====
section
/-! DEFINITION. Operand assembly and the integer arithmetic of the rules: exact integers, then one narrowing
(spec/00_scope.md R18, R19; spec/30_encoding.md R92). -/

namespace Sys2Proof.Machine

/-- `interval = zext_64(pay)` as a duration (spec/30_encoding.md R92). -/
def intervalDuration (n : Nat) : Time := BitVec.ofNat 64 n

/-- The encoder's saturation of an interval: `min(interval, 2^32 - 1)` (spec/41_decode.md R142). -/
def saturateInterval (n : Nat) : Nat := min n u32Max

/-- `clamp(v, lo, hi)` (spec/00_scope.md R19). -/
def clampInt (v lo hi : Int) : Int := min (max v lo) hi

/-- `(x + d) mod m`, Euclidean (spec/00_scope.md R19). -/
def addMod (x : Nat) (d : Int) (m : Nat) : Nat := (((x : Int) + d) % (m : Int)).toNat

/-- `wrap32` of an exact non-negative integer (spec/00_scope.md R19). -/
def wrap32 (n : Nat) : BitVec 32 := BitVec.ofNat 32 n

/-- The exact clear time `now + (predicted * duty) div 100` (spec/45_gate.md R244). -/
def clearSum (now predicted : Time) (duty : Nat) : Nat := now.toNat + predicted.toNat * duty / 100

/-- An exact time as a 64-bit Time. The spec models no wrap (spec/00_scope.md R10) and says nothing of a sum that does
not fit: that one value is free (DESIGN CHOICE, log entry 9). -/
def timeOfSum (freeIdx n : Nat) : Time :=
  if n < 2 ^ 64 then BitVec.ofNat 64 n else Config.clearTimeBeyond freeIdx

end Sys2Proof.Machine
end

