-- ==== Sys2Proof/Machine/Lfo.lean ====
section
/-! DEFINITION. The LFO bank (spec/44_lfo.md R220 to R229). -/

namespace Sys2Proof.Machine

/-- `ADD[m]`: the phase added before lookup (spec/30_encoding.md R101). -/
def phaseAdd : LfoMode → BitVec 32
  | .random => 0
  | .sawUp => 0
  | .sawDown => 0
  | .sine => 0
  | .sine90 => 0x40000000
  | .sine180 => 0x80000000
  | .tri => 0
  | .tri90 => 0x40000000
  | .tri180 => 0x80000000
  | .square => 0
  | .square90 => 0x40000000
  | .square180 => 0x80000000

/-- The top 12 bits of a phase: `q >> 20` (R221). -/
def topBits (q : BitVec 32) : Sample := (q >>> 20).setWidth 12

/-- The square wave: high in the first half of the phase (R221). -/
def squareOf (q : BitVec 32) : Sample := if q.toNat < 2 ^ 31 then 4095 else 0

/-- `WAVE(m, p)` (R221). Random has no waveform: `none`. -/
def wave (m : LfoMode) (p : BitVec 32) : Option Sample :=
  let q := p + phaseAdd m
  match m with
  | .random => none
  | .sawUp => some (topBits q)
  | .sawDown => some (topBits (0xFFFFFFFF - q))
  | .sine => some (Config.sine q)
  | .sine90 => some (Config.sine q)
  | .sine180 => some (Config.sine q)
  | .tri => some (Config.tri q)
  | .tri90 => some (Config.tri q)
  | .tri180 => some (Config.tri q)
  | .square => some (squareOf q)
  | .square90 => some (squareOf q)
  | .square180 => some (squareOf q)

/-- `EmitDAC(t, v); last_out[t] <- some v` (R222, R227). -/
def emitSample (t : Track) (v : Sample) (s : State) : State :=
  emitDac t v { s with lastOut := s.lastOut.set t (some v) }

/-- `LfoSetOffset(t, p)`: a non-Random track emits its sample when it differs from the last one emitted (R222). -/
def lfoSetOffset (t : Track) (p : BitVec 32) (s : State) : State :=
  match wave (s.lfoMode.get t) p with
  | none => s
  | some v => if s.lastOut.get t = some v then s else emitSample t v s

/-- The number of table entries a track samples: its steps, or its length when its steps are 0 (R227). -/
def sampledCount (s : State) (t : Track) : Nat :=
  if 1 ≤ s.params.steps.get t then s.params.steps.get t else s.params.length.get t

/-- The table entry a Random sample reads (R227). An index is below 64 whenever Params is legal; taking it modulo 64
matters in no other state (log entry 20). -/
def sampledValue (s : State) (t : Track) : Sample :=
  (s.table.get t)[(s.randIdx.get t % sampledCount s t) % 64]'(Nat.mod_lt _ (by decide))

/-- `RandomSample(t)` (R227). -/
def randomSample (t : Track) (s : State) : State :=
  { emitSample t (sampledValue s t) s with randIdx := s.randIdx.set t (s.randIdx.get t + 1) }

/-- `LfoGate(t, high)`: a rising gate edge takes one sample in Random mode; the flag is kept in every mode (R228). -/
def lfoGate (t : Track) (high : Bool) (s : State) : State :=
  let s1 := { s with gateHigh := s.gateHigh.set t high }
  if high = true ∧ s.gateHigh.get t = false ∧ s.lfoMode.get t = .random then randomSample t s1 else s1

end Sys2Proof.Machine
end

