-- ==== Sys2Proof/Machine/Gate.lean ====
section
/-! DEFINITION. The gate scheduler: command selection and the four gate commands (spec/45_gate.md R240 to R248). A
command applies to the track line 8 of the pass is serving, `gateTrk`. -/

namespace Sys2Proof.Machine

/-- `PatBit(t, i)`: false past the end of the sequence (R243). -/
def patBit (s : State) (t : Track) (i : Nat) : Bool := (s.patterns.get t).getD i false

/-- The command `GateTick` selects for track `t`: SET or CLEAR when this pass ticked and the playhead moved, else
RETAIN (R240, R241, R242). -/
def selectedCmd (t : Track) (s : State) : BitVec 2 :=
  if s.ticked = true ∧ s.lastGateIndex.get t ≠ some (s.tph.get t) then
    if patBit s t (s.tph.get t) = true ∧ s.mute.get t = false then 0b01 else 0b10
  else 0b00

/-- `GateTick` up to `Apply`: the selected command becomes the one to apply, and the playhead it was computed at is
recorded (R240). -/
@[simps] def gateSelect (t : Track) (s : State) : State :=
  { s with
    gateTrk := t
    gateCmd := selectedCmd t s
    lastGateIndex :=
      if s.ticked = true ∧ s.lastGateIndex.get t ≠ some (s.tph.get t) then
        s.lastGateIndex.set t (some (s.tph.get t))
      else s.lastGateIndex
    pos := .apply }

/-- Driving gate `t` inactive and cancelling its clear time (R245, R246). -/
def gateOff (t : Track) (s : State) : State :=
  let s1 := setGateLine t false s
  lfoGate t false { s1 with clearAt := s1.clearAt.set t none }

/-- Driving gate `t` active with a clear time (R244). A clear time that does not fit 64 bits is a free value
(log entry 9). -/
def gateOn (t : Track) (s : State) : State :=
  let sum := clearSum s.now s.predicted (s.duty.get t)
  let s1 := setGateLine t true s
  lfoGate t true
    { s1 with
      clearAt := s1.clearAt.set t (some (timeOfSum s.freeIdx sum))
      freeIdx := if sum < 2 ^ 64 then s.freeIdx else s.freeIdx + 1 }

/-- The clear time of a track has come (R246). -/
def clearDue (s : State) (t : Track) : Bool :=
  match s.clearAt.get t with
  | none => false
  | some c => decide (c.toNat ≤ s.now.toNat)

/-- RETAIN, 0b00 (R246). -/
def execRetain (s : State) : Out :=
  guarded s (.next (if clearDue s s.gateTrk then gateOff s.gateTrk s else s))

/-- SET, 0b01 (R244). -/
def execSet (s : State) : Out := guarded s (.next (gateOn s.gateTrk s))

/-- CLEAR, 0b10 (R245). -/
def execClear (s : State) : Out := guarded s (.next (gateOff s.gateTrk s))

/-- Gate command 0b11: raises RESERVED_OP (R247). -/
def execGcmdReserved (s : State) : Out := guarded s (.next (raise .reservedOp s))

end Sys2Proof.Machine
end

