-- ==== Sys2Proof/Machine/Parametric.lean ====
section
/-! DEFINITION. The parameter operations SEED to STEPSCLICK, Fate and regeneration
(spec/42_sequencer.md R174 to R193). -/

namespace Sys2Proof.Machine

/-! ### Regeneration and Fate -/

/-- `Regenerate()` (R190). -/
@[simps] def regenerate (s : State) : State :=
  { s with
    patterns := patternsOf s.params
    table := tablesOf s.params
    dpt := dptOf s.params
    randIdx := PerTrack.const 0 }

/-- The lengths a Fate draw admits: the powers of two in 2..64, and `FATE_LENGTHS` (R193). -/
def fateLengthSet : List Nat := [2, 4, 8, 16, 32, 64] ++ fateLengths

/-- One drawn length: an entry of the admitted set, whichever the free value picks (R193). -/
def drawLength (n : Nat) : Nat := fateLengthSet.getD (n % fateLengthSet.length) 2

/-- The Params a Fate randomization draws; `pattern_length` stays (R193). The draws are free values
(log entry 8). -/
def fateParams (freeIdx : Nat) (p : Params) : Params :=
  let len := PerTrack.ofFn fun t => drawLength (Config.fateLength freeIdx t)
  { seed := Config.fateSeed freeIdx % 10000
    patternLength := p.patternLength
    length := len
    steps := PerTrack.ofFn fun t => Config.fateSteps freeIdx t % (len.get t + 1)
    offset := PerTrack.ofFn fun t => Config.fateOffset freeIdx t % len.get t }

/-- `FateRandomize()` (R193). The counter moves on, so that the next draws are new ones. -/
def fateRandomize (s : State) : State :=
  { s with
    params := fateParams s.freeIdx s.params
    regen := true
    resetArmed := true
    freeIdx := s.freeIdx + 1 }

/-! ### Shared effects -/

/-- The end of an edit that shows a display: regenerate, switch the mode, accept. -/
@[simps] def editDone (m : Mode) (s : State) : State := { s with regen := true, mode := m, acted := true }

/-- A click's mode: `alternate`, unless the mode is that already, and then `plain` (R175, R179, R181). -/
def toggleMode (alternate plain : Mode) (s : State) : State :=
  { s with mode := if s.mode = alternate then plain else alternate, acted := true }

/-- `StepOne(t, +1)` and `StepOne(t, -1)` on a track's (steps, length): wrap first, then clamp (R182). -/
def stepOne (up : Bool) (p : Nat × Nat) : Nat × Nat :=
  let n0 : Int := if up then (p.1 : Int) + 1 else (p.1 : Int) - 1
  let wraps : Bool := if up then decide (n0 > (p.2 : Int)) else decide (n0 < 0)
  let len1 : Int := if wraps then (if up then (p.2 : Int) + 1 else (p.2 : Int) - 1) else (p.2 : Int)
  let n1 : Int := if wraps then (if up then 0 else len1) else n0
  let len := clampInt len1 tlenMin tlenMax
  let n := min (clampInt n1 0 stepsMax) len
  (n.toNat, len.toNat)

/-- `k` unit steps (R180). -/
def stepMany (up : Bool) : Nat → Nat × Nat → Nat × Nat
  | 0, p => p
  | k + 1, p => stepMany up k (stepOne up p)

/-! ### The operations -/

/-- SEED(delta), opc 2 (R174). -/
def execSeed (d : Int) (s : State) : Out :=
  guarded s (.next
    (if s.mode = .fate then accept (fateRandomize s)
     else
      let v := (s.params.seed : Int) + d
      if 0 ≤ v ∧ v ≤ (seedMax : Int) then
        editDone .seed { s with params := { s.params with seed := v.toNat } }
      else s))

/-- SEEDCLICK, opc 3 (R175). -/
def execSeedClick (s : State) : Out := guarded s (.next (toggleMode .fate .seed s))

/-- LENGTH(delta), opc 4 (R176). -/
def execLength (d : Int) (s : State) : Out :=
  guarded s (.next
    (let v := (s.params.patternLength : Int) + d
     if (plenMin : Int) ≤ v ∧ v ≤ (plenMax : Int) then
       editDone .length { s with params := { s.params with patternLength := v.toNat } }
     else s))

/-- LENGTHCLICK, opc 5: no effect, and not accepted (R177). -/
def execLengthClick (s : State) : Out := guarded s (.next s)

/-- OFFSET(track, delta), opc 6 (R178). -/
def execOffset (t : Track) (d : Int) (s : State) : Out :=
  guarded s (.next
    (if s.mode = .lfo t then
       accept (markRegen { s with lfoMode := s.lfoMode.set t (cycleLfo (s.lfoMode.get t) d) })
     else
       editDone (.offset t)
         { s with params :=
           { s.params with
             offset := s.params.offset.set t (addMod (s.params.offset.get t) d (s.params.length.get t)) } }))

/-- OFFSETCLICK(track), opc 7 (R179). -/
def execOffsetClick (t : Track) (s : State) : Out := guarded s (.next (toggleMode (.lfo t) (.offset t) s))

/-- The Params after `|d|` unit steps of track `t` and the offset's reduction (R180, R182, R183). -/
def steppedParams (t : Track) (d : Int) (p : Params) : Params :=
  let r := stepMany (decide (0 < d)) d.natAbs (p.steps.get t, p.length.get t)
  { p with
    steps := p.steps.set t r.1
    length := p.length.set t r.2
    offset := p.offset.set t (p.offset.get t % r.2) }

/-- STEPS(track, delta), opc 8 (R180). -/
def execSteps (t : Track) (d : Int) (s : State) : Out :=
  guarded s (.next
    (if s.mode = .trackSync t then
       accept { s with sync := s.sync.set t (cycleSync (s.sync.get t) d) }
     else
       editDone (.steps t) { s with params := steppedParams t d s.params }))

/-- STEPSCLICK(track), opc 9 (R181). -/
def execStepsClick (t : Track) (s : State) : Out :=
  guarded s (.next (toggleMode (.trackSync t) (.steps t) s))

end Sys2Proof.Machine
end

