-- ==== Sys2Proof/Machine/Playhead.lean ====
section
/-! DEFINITION. The playhead operations TICK and RESET (spec/42_sequencer.md R172, R173). -/

namespace Sys2Proof.Machine

/-- A track's playhead under its sync policy, from the counters and lengths at a Tick (R172). -/
def trackPlayhead (p : SyncPolicy) (gph tickCount : BitVec 32) (patternLength length : Nat) : Nat :=
  match p with
  | .sync => gph.toNat % min patternLength length
  | .free => gph.toNat % length
  | .loop => tickCount.toNat % length

/-- The global playhead after a Tick: 0 when a reset is armed, else one more, modulo 2^32 (R172). -/
def nextGph (s : State) : BitVec 32 := if s.resetArmed then 0 else s.gph + 1

/-- TICK(interval), opc 0 (R172). -/
def execTick (interval : Nat) (s : State) : Out :=
  guarded s (.next
    { s with
      lastTickTime := s.now
      pst := (Config.predict s.pst (intervalDuration interval)).1
      predicted := (Config.predict s.pst (intervalDuration interval)).2
      tickCount := s.tickCount + 1
      gph := nextGph s
      resetArmed := false
      tph := PerTrack.ofFn fun t =>
        trackPlayhead (s.sync.get t) (nextGph s) (s.tickCount + 1) s.params.patternLength (s.params.length.get t)
      ticked := true })

/-- RESET, opc 1: it clears the predictor's history and arms the restart, and moves no playhead (R173). -/
def execReset (s : State) : Out :=
  guarded s (.next { s with pst := Config.preset s.pst, resetArmed := true })

end Sys2Proof.Machine
end

