-- ==== Sys2Proof/Machine/Dispatch.lean ====
section
/-! DEFINITION. One arm for each constructor of Instr. -/

namespace Sys2Proof.Machine

def exec (i : Instr) (s : State) : Host.Outcome State Fault Refusal :=
  match i with
  | .tick interval => Sys2Proof.Machine.execTick interval s
  | .reset => Sys2Proof.Machine.execReset s
  | .seed d => Sys2Proof.Machine.execSeed d s
  | .seedClick => Sys2Proof.Machine.execSeedClick s
  | .length d => Sys2Proof.Machine.execLength d s
  | .lengthClick => Sys2Proof.Machine.execLengthClick s
  | .offset t d => Sys2Proof.Machine.execOffset t d s
  | .offsetClick t => Sys2Proof.Machine.execOffsetClick t s
  | .steps t d => Sys2Proof.Machine.execSteps t d s
  | .stepsClick t => Sys2Proof.Machine.execStepsClick t s
  | .retain => Sys2Proof.Machine.execRetain s
  | .set => Sys2Proof.Machine.execSet s
  | .clear => Sys2Proof.Machine.execClear s
  | .gcmdReserved => Sys2Proof.Machine.execGcmdReserved s
  | .clk ts => Sys2Proof.Machine.execClk ts s
  | .rst => Sys2Proof.Machine.execRst s
  | .rstclk ts => Sys2Proof.Machine.execRstclk ts s
  | .exp0 v => Sys2Proof.Machine.execExp0 v s
  | .exp1 v => Sys2Proof.Machine.execExp1 v s

end Sys2Proof.Machine
end

