-- ==== Sys2Proof/Machine/Boot.lean ====
section
/-! DEFINITION. Power-on reset and boot (spec/70_reset_and_hazards.md R290 to R293). -/

namespace Sys2Proof.Machine

/-- What every state element other than the fault code holds after a failed boot: "unspecified", so free values
(R292, spec/93_implementation_defined.md I31; log entry 16). -/
opaque failedBoot : Nat → State

/-- Power-on reset: every element at its reset value. The environment's inputs to come and the draw counter are not
the machine's, and stay. -/
@[simps] def powerOn (s : State) : State := { State.reset with stim := s.stim, freeIdx := s.freeIdx }

/-- `Boot()`, one atomic step: the configuration check, then every element at its reset value, the handlers bound and
the four interrupts enabled, and the agents started (R292). -/
def boot (ok : Bool) (s : State) : State :=
  if ok then { powerOn s with irqEnabled := true, pos := .idle }
  else raise .bootConfig { failedBoot s.freeIdx with stim := s.stim, freeIdx := s.freeIdx + 1 }

end Sys2Proof.Machine
end

