-- ==== Sys2Proof/Machine/InputDecoder.lean ====
section
/-! DEFINITION. The input decoder (spec/41_decode.md R140 to R157). The parts that read an OPEN parameter take it as an
argument; `decodeInputs` gives them the parameters. -/

namespace Sys2Proof.Machine

/-! ### Quadrature decode -/

/-- `QTAB` (R148). Its values are the spec's, from general knowledge (PRESUMED, log entry 21). -/
def qtab (nibble : BitVec 4) : Int :=
  match nibble.toNat with
  | 1 => 1
  | 7 => 1
  | 8 => 1
  | 14 => 1
  | 2 => -1
  | 4 => -1
  | 11 => -1
  | 13 => -1
  | _ => 0

/-- The rolling-register value of a full positive detent (R149; PRESUMED, log entry 21). -/
def sentinelUp : BitVec 8 := 0x17

/-- The rolling-register value of a full negative detent (R149; PRESUMED, log entry 21). -/
def sentinelDown : BitVec 8 := 0x2B

/-- `QStep(k, pair)` on one encoder: its new state, and -1, 0 or +1 (R147). -/
def qstep (e : Encoder) (pair : BitVec 2) : Encoder × Int :=
  let nib : BitVec 4 := e.nib.extractLsb' 0 2 ++ pair
  if qtab nib = 0 then ({ e with nib := nib }, 0)
  else
    let roll : BitVec 8 := e.roll.extractLsb' 0 4 ++ nib
    ({ nib := nib, roll := roll },
      if roll = sentinelUp then 1 else if roll = sentinelDown then -1 else 0)

/-- The pair `{A, B}` an encoder samples from a snapshot (R146, spec/30_encoding.md R103). -/
def samplePair (pins : EncoderPins) (v : Snap) : BitVec 2 :=
  BitVec.ofBool (v.getLsbD pins.a.val) ++ BitVec.ofBool (v.getLsbD pins.b.val)

/-- One snapshot of expander `e` for one encoder and its raw count (R144, R146). -/
def sampleEncoder (pins : EncoderPins) (e : Expander) (v : Snap) (st : Encoder × Int) : Encoder × Int :=
  if pins.exp = e then
    let r := qstep st.1 (samplePair pins v)
    (r.1, st.2 + r.2)
  else st

/-! ### Buttons -/

/-- One snapshot of expander `e` for one button: a change of the raw level restarts the hold (R151). -/
def sampleButton (pin : ButtonPin) (now : Time) (e : Expander) (v : Snap) (b : Button) : Button :=
  if pin.exp = e then
    let x := v.getLsbD pin.bit.val
    if x ≠ b.raw then { b with raw := x, chg := now } else b
  else b

/-- Debounce: the raw level is taken over when it has been held long enough; a rising edge clicks (R152). -/
def debounce (hold now : Time) (b : Button) : Button × Bool :=
  if b.raw ≠ b.deb ∧ b.chg.toNat + hold.toNat ≤ now.toNat then
    ({ b with deb := b.raw }, b.raw)
  else (b, false)

/-! ### One pass -/

/-- The drained snapshots in processing order: expander 0's oldest first, then expander 1's (R144). -/
def snapshotsInOrder (d : PerExp (List Snap)) : List (Expander × Snap) :=
  d.e0.map (fun v => (Expander.e0, v)) ++ d.e1.map (fun v => (Expander.e1, v))

/-- One encoder over the pass's snapshots, from a raw count of 0 (R144, R146). -/
def runEncoder (pins : EncoderPins) (snaps : List (Expander × Snap)) (e : Encoder) : Encoder × Int :=
  snaps.foldl (fun st x => sampleEncoder pins x.1 x.2 st) (e, 0)

/-- One button over the pass's snapshots, then its debounce (R144, R151, R152). -/
def runButton (pin : ButtonPin) (hold now : Time) (snaps : List (Expander × Snap)) (b : Button) : Button × Bool :=
  debounce hold now (snaps.foldl (fun st x => sampleButton pin now x.1 x.2 st) b)

/-- The newest drained snapshot of an expander, or its cached one (R144). -/
def newestSnapshot (cached : Snap) (drained : List Snap) : Snap := drained.getLast?.getD cached

/-- What one pass's decode computes before emission. -/
structure Decoded where
  enc : PerControl Encoder
  /-- `r[k]`, the raw count of each encoder (R146). -/
  raw : PerControl Int
  btn : PerControl Button
  /-- `click[b]` (R152). -/
  click : PerControl Bool
  ast : AState
  /-- `d_seed`, after acceleration and clamping (R153). -/
  dSeed : Int
  /-- The Tick's interval, saturated (R142). -/
  interval : Nat
deriving DecidableEq, Repr

/-- The decode of a pass's drained facts, with the OPEN parameters as arguments (R140 to R153). -/
def decodedWith (pins : PinMap) (hold : Time) (s : State) : Decoded :=
  let snaps := snapshotsInOrder s.dSnap
  let encs := PerControl.ofFn fun c => runEncoder (pins.enc.get c) snaps (s.enc.get c)
  let btns := PerControl.ofFn fun c => runButton (pins.btn.get c) hold s.now snaps (s.btn.get c)
  let acc := accel s.ast encs.seed.2 s.now
  { enc := PerControl.ofFn fun c => (encs.get c).1
    raw := PerControl.ofFn fun c => (encs.get c).2
    btn := PerControl.ofFn fun c => (btns.get c).1
    click := PerControl.ofFn fun c => (btns.get c).2
    ast := acc.2
    dSeed := clampInt acc.1 (-2 ^ 31) (2 ^ 31 - 1)
    interval := saturateInterval (s.dTs.toNat - s.lastClkTs.toNat) }

/-- A word, if its condition holds. -/
def emitIf (b : Bool) (i : Instr) : List OpWord := if b then [opWordOf i] else []

/-- The four words of track `t`: offset, offset button, steps, steps button (R156). -/
def emitTrack (d : Decoded) (t : Track) : List OpWord :=
  emitIf (d.raw.offset.get t ≠ 0) (.offset t (d.raw.offset.get t)) ++
  emitIf (d.click.offset.get t) (.offsetClick t) ++
  emitIf (d.raw.steps.get t ≠ 0) (.steps t (d.raw.steps.get t)) ++
  emitIf (d.click.steps.get t) (.stepsClick t)

/-- The operation list of a pass, in the order of R156: reset and clock, seed, length, then the tracks. -/
def emitWords (dRst dClk : Bool) (d : Decoded) : List OpWord :=
  emitIf dRst .reset ++
  emitIf dClk (.tick d.interval) ++
  emitIf (d.dSeed ≠ 0) (.seed d.dSeed) ++
  emitIf d.click.seed .seedClick ++
  emitIf (d.raw.length ≠ 0) (.length d.raw.length) ++
  emitIf d.click.length .lengthClick ++
  Track.all.flatMap (emitTrack d)

/-- The decoder's writes: its own state alone (R140, R142, R144). -/
@[simps] def decoderWrites (d : Decoded) (s : State) : State :=
  { s with
    enc := d.enc
    btn := d.btn
    ast := d.ast
    lastClkTs := if s.dClk then s.dTs else s.lastClkTs
    expCache := ⟨newestSnapshot s.expCache.e0 s.dSnap.e0, newestSnapshot s.expCache.e1 s.dSnap.e1⟩ }

/-- `Decode(now, d_rst, d_clk, d_ts, d_snap)`: the new decoder state and the words to push (R140). -/
def decodeInputs (s : State) : State × List OpWord :=
  let d := decodedWith pinMap Config.debounceHold s
  (decoderWrites d s, emitWords s.dRst s.dClk d)

end Sys2Proof.Machine
end

