-- ==== Sys2Proof/Machine/TimeBase.lean ====
section
/-! DEFINITION. The time-driven method `TimeStep(now)` (spec/43_timebase.md R210 to R214). -/

namespace Sys2Proof.Machine

/-- The mode after the idle check: Run once `now - last_action ≥ IDLE_TIMEOUT` (R210). -/
def idleMode (timeout : Nat) (now lastAction : Time) (m : Mode) : Mode :=
  if m ≠ .run ∧ lastAction.toNat + timeout ≤ now.toNat then .run else m

/-- `interp`: exact product, floor division, 0 without a prediction (R212). -/
def interpolation (elapsed predicted dpt : Nat) : Nat :=
  if 0 < predicted then min elapsed predicted * dpt / predicted else 0

/-- The phase of a track: `wrap32(tph * dpt + interp)` (R212). -/
def phaseOf (now lastTickTime predicted : Time) (tph : Nat) (dpt : BitVec 32) : BitVec 32 :=
  wrap32 (tph * dpt.toNat + interpolation (now.toNat - lastTickTime.toNat) predicted.toNat dpt.toNat)

/-- `TimeStep(now)`: idle revert, then the four phases (R210, R212). -/
@[simps] def timeStep (s : State) : State :=
  { s with
    mode := idleMode idleTimeout s.now s.lastAction s.mode
    phase := PerTrack.ofFn fun t => phaseOf s.now s.lastTickTime s.predicted (s.tph.get t) (s.dpt.get t) }

end Sys2Proof.Machine
end

