-- ==== Sys2Proof/Machine/Pass.lean ====
section
/-! DEFINITION. The lines of one pass (spec/40_capture.md R125 to R128), each an atomic step of the pass agent; the
words of line 5 and the gate commands of line 8 are instructions, and run one in a step (log entry 2). -/

namespace Sys2Proof.Machine

/-- The drain: one atomic read and clear of the captured facts, when the dirty read says so (R126). `clk_ts` stays. -/
def drain (dirty : Bool) (s : State) : State :=
  if dirty then
    { s with
      dRst := s.rstPending
      dClk := s.clkPending
      dTs := s.clkTs
      dSnap := s.expq
      rstPending := false
      clkPending := false
      expq := ⟨[], []⟩ }
  else
    { s with dRst := false, dClk := false, dTs := s.clkTs, dSnap := ⟨[], []⟩ }

/-- The dirty read's answer: the environment's draw, or the exact answer (R125). -/
def dirtyAnswer (p : PassInput) (s : State) : Bool := p.dirty.getD (factsPending s)

/-- The pass's inputs and cleared marks; the DAC event list of the new pass is empty. -/
@[simps] def passInputs (p : PassInput) (s : State) : State :=
  { s with now := p.now, mute := p.mute, regen := false, acted := false, ticked := false, dac := [] }

/-- Lines 1 and 2 of a pass: dirty read, drain, bus-error check (R127, spec/60_exceptions.md R265). A `now` before the
last pass's, or before a timestamp it drains, is no step (R128, log entry 4). -/
def beginPass (p : PassInput) (s : State) : Out :=
  let s1 := drain (dirtyAnswer p s) s
  if p.now.toNat < s.now.toNat ∨ (s1.dClk = true ∧ p.now.toNat < s1.dTs.toNat) then .refused .timeOrder
  else
    let s2 := passInputs p s1
    .next (if p.busErr then raise .busError s2 else { s2 with pos := .decode })

/-- After line 4: on to line 5, unless a push raised a fault, which ends the pass there (R127). -/
def afterPushes (s : State) : State :=
  match s.fault with
  | none => { s with pos := .update }
  | some _ => s

/-- Lines 3 and 4: decode the facts and push the words (R127). -/
def decodeLine (s : State) : State := afterPushes (pushAll (decodeInputs s).2 (decodeInputs s).1)

/-- The end of `Update`, once the operation queue is empty: one regeneration, then the idle stamp
(spec/42_sequencer.md R170). -/
def updateEnd (s : State) : State :=
  let s1 := if s.regen then regenerate s else s
  let s2 := if s.acted then { s1 with lastAction := s1.now } else s1
  { s2 with regen := false, acted := false, pos := .time }

/-- Line 6 (R127). -/
def timeLine (s : State) : State := { timeStep s with pos := .lfo }

/-- Line 7: `LfoSetOffset(t, phase[t])` for t in 0..3 (R127). -/
def lfoLine (s : State) : State :=
  { Track.all.foldl (fun s t => lfoSetOffset t (s.phase.get t) s) s with pos := .gate .t0 }

/-- Where the pass agent stands once the command of track `t` has been taken: the next track, or the pass's end. -/
def afterGate (t : Track) : PassPos :=
  match t.succ? with
  | some u => .gate u
  | none => .idle

/-- The pass agent's step where it fetches no instruction. -/
def passLine (s : State) : State :=
  match s.pos with
  | .boot => s
  | .idle => s
  | .decode => decodeLine s
  | .update => updateEnd s
  | .time => timeLine s
  | .lfo => lfoLine s
  | .gate t => gateSelect t s
  | .apply => s

end Sys2Proof.Machine
end

