-- ==== Sys2Proof/Machine/Env.lean ====
section
/-! DEFINITION. Which agent moves next, the environment's inputs, and where an instruction is fetched
(spec/20_memory.md R74, R80; spec/40_capture.md R127; spec/70_reset_and_hazards.md R305, R306). -/

namespace Sys2Proof.Machine

/-- Who moves next. -/
inductive Move where
  /-- The pass agent, inside a pass. -/
  | pass
  /-- The environment's input, which may start a pass, a capture or boot. -/
  | env (x : Stimulus)
deriving DecidableEq, Repr

/-- The pass agent is inside a pass. -/
def midPass (p : PassPos) : Bool :=
  match p with
  | .boot => false
  | .idle => false
  | .decode => true
  | .update => true
  | .time => true
  | .lfo => true
  | .gate _ => true
  | .apply => true

/-- An input that may fall between two atomic steps of a pass: an edge, a capture ("it preempts the pass agent at any
point outside a drain", spec/20_memory.md R74), or loss of power. -/
def mayPreempt (x : Stimulus) : Bool :=
  match x with
  | .powerOn => true
  | .boot _ => false
  | .edge _ => true
  | .capture _ _ => true
  | .pass _ => false
  | .go => false
  | .preempt => false

/-- Who moves next, and the state once the input that decides it is taken from the list. Between passes the environment
moves. Inside a pass the pass agent moves, unless the list says that an input falls here. Where the environment moves
and no input is queued, its input is a free value (log entries 3 and 26). A capture may fall between lines 7 and 8 too
(spec/20_memory.md R74), but between no two DAC events: the events of a pass come out together at its end
(spec/20_memory.md R82, `dacOut`, log entry 32). -/
def nextMove (s : State) : Move × State :=
  if midPass s.pos then
    match s.stim with
    | .preempt :: x :: rest =>
      if mayPreempt x then (.env x, { s with stim := rest }) else (.pass, { s with stim := x :: rest })
    | .go :: rest => (.pass, { s with stim := rest })
    | _ => (.pass, s)
  else
    match s.stim with
    | [] => (.env (Config.envInput s.freeIdx), { s with freeIdx := s.freeIdx + 1 })
    | x :: rest => (.env x, { s with stim := rest })

/-- The instruction the next step runs, if any, and the state past it: the event of a capture, the oldest word of the
operation queue at line 5 (spec/42_sequencer.md R170), the selected gate command at line 8 (spec/45_gate.md R240). -/
def fetch (s : State) : Option (Raw × State) :=
  match nextMove s with
  | (.env (.capture code operand), s1) =>
    if s1.pos = .boot then none else some (.capevt code operand, s1)
  | (.env _, _) => none
  | (.pass, s1) =>
    match s1.pos, s1.opq with
    | .update, w :: ws => some (.opw w, { s1 with opq := ws })
    | .apply, _ => some (.gcmd s1.gateCmd, { s1 with pos := afterGate s1.gateTrk })
    | _, _ => none

/-- The step of an environment input that is no instruction. -/
def envStep (x : Stimulus) (s : State) : Out :=
  match x with
  | .powerOn => .next (powerOn s)
  | .boot ok => if s.pos = .boot then .next (boot ok s) else .refused .alreadyBooted
  | .edge l => .next (lineEdge l s)
  | .capture _ _ => .refused .notBooted
  | .pass p => if s.pos = .boot then .refused .notBooted else beginPass p s
  | .go => .next s
  | .preempt => .next s

/-- A step that runs no instruction. -/
def controlStep (s : State) : Out :=
  match nextMove s with
  | (.env x, s1) => envStep x s1
  | (.pass, s1) => .next (passLine s1)

/-- The step of a machine in the fault state: power-on resets it, an edge sets nothing, and no agent takes a step
(spec/60_exceptions.md R262, spec/10_state.md R54; log entry 15). -/
def faultedStep (c : FaultCode) (s : State) : Out :=
  match s.stim with
  | [] => .fault (.halted c)
  | x :: rest =>
    match x with
    | .powerOn => .next (powerOn { s with stim := rest })
    | .edge _ => .next { s with stim := rest }
    | .boot _ => .fault (.halted c)
    | .capture _ _ => .fault (.halted c)
    | .pass _ => .fault (.halted c)
    | .go => .next { s with stim := rest }
    | .preempt => .next { s with stim := rest }

/-- Timestamps of successive clock captures do not decrease (spec/40_capture.md R128, premise 2). -/
def timeOrdered (i : Instr) (s : State) : Bool :=
  match i with
  | .tick _ => true
  | .reset => true
  | .seed _ => true
  | .seedClick => true
  | .length _ => true
  | .lengthClick => true
  | .offset _ _ => true
  | .offsetClick _ => true
  | .steps _ _ => true
  | .stepsClick _ => true
  | .retain => true
  | .set => true
  | .clear => true
  | .gcmdReserved => true
  | .clk ts => decide (s.clkTs.toNat ≤ ts.toNat)
  | .rst => true
  | .rstclk ts => decide (s.clkTs.toNat ≤ ts.toNat)
  | .exp0 _ => true
  | .exp1 _ => true

/-! ### Placing an instruction where the next step fetches it -/

/-- The lines whose pending flags a capture code needs (spec/40_capture.md R120 to R123). -/
def linesOfCode (code : BitVec 8) : List Line :=
  match code.toNat with
  | 0 => [.clk]
  | 1 => [.rst]
  | 2 => [.rst, .clk]
  | 3 => [.exp0]
  | 4 => [.exp1]
  | _ => []

/-- `s` with the instruction `r` stored where the next step fetches it, and with what that fetch needs: no fault
state, and for an operation the position at line 5 and the word oldest in the queue; for a gate command the position
at its application and the command; for a capture the event next in the list, its lines pending, boot done, and no
later timestamp latched; inside a pass the event is marked to fall there (log entry 1). -/
def placeRaw (r : Raw) (s : State) : State :=
  match r with
  | .opw w => { s with fault := none, pos := .update, opq := w :: s.opq, stim := .go :: s.stim }
  | .gcmd c => { s with fault := none, pos := .apply, gateCmd := c, stim := .go :: s.stim }
  | .capevt code operand =>
    { s with
      fault := none
      pos := if s.pos = .boot then .idle else s.pos
      irqPend := (linesOfCode code).foldl (fun q l => q.set l true) s.irqPend
      clkTs := if (code = 0 ∨ code = 2) ∧ operand.toNat < s.clkTs.toNat then operand else s.clkTs
      stim := (if midPass s.pos then [.preempt] else []) ++ .capture code operand :: s.stim }

/-- `placeRaw` for the bits of a row of the opcode table. -/
def placeTableWord (nbits w : Nat) (s : State) : State :=
  match rawOfTableWord nbits w with
  | some r => placeRaw r s
  | none => s

end Sys2Proof.Machine
end

