-- ==== Sys2Proof/Machine/Run.lean ====
section
/-! DEFINITION. Running a fetched instruction: decode it, and run its meaning. -/

namespace Sys2Proof.Machine

/-- The step of a fetched instruction. A queue word that is not well formed raises RESERVED_OP, with the word already
removed (spec/42_sequencer.md R170, spec/30_encoding.md R94); a capture record that decodes to nothing is refused
(R97); a capture whose timestamp goes back is no step (spec/40_capture.md R128). -/
def runRaw (r : Raw) (s : State) : Out :=
  match decode r with
  | .ok i => if timeOrdered i s then exec i s else .refused .timeOrder
  | .error e =>
    match r with
    | .opw _ => .next (raise .reservedOp s)
    | .gcmd _ => .next (raise .reservedOp s)
    | .capevt _ _ => .refused (.reservedEvent e)

/-- One step of a machine that is not in the fault state. -/
def runningStep (s : State) : Out :=
  match fetch s with
  | some (r, s1) => runRaw r s1
  | none => controlStep s

end Sys2Proof.Machine
end

