-- ==== Sys2Proof/Machine/Step.lean ====
section
/-! DEFINITION. One step of the machine, and the placing of an instruction where that step fetches it. -/

namespace Sys2Proof.Machine

/-- One atomic step of whichever agent moves next. -/
def step (s : State) : Host.Outcome State Fault Refusal :=
  match s.fault with
  | none => runningStep s
  | some c => faultedStep c s

/-- `s` with the instruction whose bits are `w` stored where `step` fetches its next instruction. -/
def State.withFetchWord (s : State) (nbits w : Nat) : State := placeTableWord nbits w s

end Sys2Proof.Machine
end

