-- ==== Sys2Proof/Machine/Outputs.lean ====
section
/-! DEFINITION. The block's outputs (spec/10_state.md R31, spec/45_gate.md R248, spec/60_exceptions.md R262). -/

namespace Sys2Proof.Machine

/-- `gate_out[t]`: the logical level; after a fault, any value (R31, R262, log entry 17). -/
def gateOut (s : State) (t : Track) : Bool :=
  match s.fault with
  | none => s.level.get t
  | some _ => Config.faultGateOut s.freeIdx t

/-- The electrical level of gate line `t`: an active gate drives the line to `GATE_ACTIVE_LEVEL` (R248). -/
def gateLineHigh (s : State) (t : Track) : Bool := gateOut s t == Config.gateActiveHigh

/-- The DAC events that are out: those of the last pass, in their order; after a fault, any value (R31, R262, log
entry 17). The events a pass records come out "all four DAC channels at once inside a single critical-section entry"
(R31), so no capture falls between two of them (spec/20_memory.md R82): none is out while the pass goes on, and all are
with the step that ends it (DESIGN CHOICE of that place, log entry 32). -/
def dacOut (s : State) : List (Track × Sample) :=
  match s.fault with
  | none => if midPass s.pos then [] else s.dac
  | some _ => Config.faultDac s.freeIdx

/-- `fault_out`: whether the machine is in the fault state (R31). -/
def faultOut (s : State) : Bool := s.fault.isSome

/-- The read-only view for the display driver (R31). -/
def displayView (s : State) : Mode × Params := (s.mode, s.params)

end Sys2Proof.Machine
end

