-- ==== Sys2Proof/Machine/Assembler.lean ====
section
/-! DEFINITION. Programs: the text syntax of spec/30_encoding.md R104, and the environment inputs an event line stands
for (spec/70_reset_and_hazards.md R305, R306). -/

namespace Sys2Proof.Machine

/-- An `event` line of R104. -/
inductive EventLine where
  | clk (ts : Time)
  | rst
  | rstclk (ts : Time)
  | exp0 (v : Snap)
  | exp1 (v : Snap)
  | pass (now : Time) (mute : PerTrack Bool) (dirty : Option Bool)
deriving DecidableEq, Repr

/-- One line of text (R104): `op` and `gcmd` lines name what the block computes, and stand in traces alone. -/
inductive AsmLine where
  | blank
  | instr (i : Instr)
  | event (e : EventLine)
deriving DecidableEq, Repr

/-! ### What a line asks of the environment -/

/-- An event line as environment inputs: the line's falling edge (spec/60_exceptions.md R267), then its handler's step
with the operand; or one pass with `bus_err = false`. -/
def stimuliOf (e : EventLine) : List Stimulus :=
  match e with
  | .clk ts => [.edge .clk, .capture 0 ts]
  | .rst => [.edge .rst, .capture 1 0]
  | .rstclk ts => [.edge .rst, .edge .clk, .capture 2 ts]
  | .exp0 v => [.edge .exp0, .capture 3 (v.setWidth 64)]
  | .exp1 v => [.edge .exp1, .capture 4 (v.setWidth 64)]
  | .pass now mute dirty => [.pass { now := now, mute := mute, busErr := false, dirty := dirty }]

/-- Loading a program into a machine that stands at a start state: its events become the environment's inputs to come,
after those already queued (log entry 1). -/
def loadProgram (p : List EventLine) (s : State) : State :=
  { s with stim := s.stim ++ p.flatMap stimuliOf }

/-! ### Text -/

/-- The words of a line, newest first in `done`; `cur` is the word being read, backwards. A comma is a word of its
own, and a semicolon ends the line. -/
def lexLine : List Char → List Char → List (List Char)
  | [], cur => if cur.isEmpty then [] else [cur.reverse]
  | c :: cs, cur =>
    if c = ';' then (if cur.isEmpty then [] else [cur.reverse])
    else if c = ' ' ∨ c = '\t' then (if cur.isEmpty then lexLine cs [] else cur.reverse :: lexLine cs [])
    else if c = ',' then
      (if cur.isEmpty then [','] :: lexLine cs [] else cur.reverse :: [','] :: lexLine cs [])
    else lexLine cs (c :: cur)

/-- A decimal digit. -/
def decDigit (c : Char) : Option Nat :=
  if 48 ≤ c.toNat ∧ c.toNat ≤ 57 then some (c.toNat - 48) else none

/-- A hexadecimal digit. -/
def hexDigit (c : Char) : Option Nat :=
  if 48 ≤ c.toNat ∧ c.toNat ≤ 57 then some (c.toNat - 48)
  else if 65 ≤ c.toNat ∧ c.toNat ≤ 70 then some (c.toNat - 55)
  else if 97 ≤ c.toNat ∧ c.toNat ≤ 102 then some (c.toNat - 87)
  else none

/-- The value of a run of digits in a base, after the value `acc`. -/
def digitsFrom (base : Nat) (digit : Char → Option Nat) : Nat → List Char → Option Nat
  | acc, [] => some acc
  | acc, c :: cs =>
    match digit c with
    | some d => digitsFrom base digit (acc * base + d) cs
    | none => none

/-- `digits`: at least one decimal digit. -/
def readNat (w : List Char) : Option Nat := if w.isEmpty then none else digitsFrom 10 decDigit 0 w

/-- `time`: a decimal number that fits a Time. -/
def readTime (w : List Char) : Option Time :=
  match readNat w with
  | some n => if n < 2 ^ 64 then some (BitVec.ofNat 64 n) else none
  | none => none

/-- `sint`: an optional sign and digits. -/
def readInt (w : List Char) : Option Int :=
  match w with
  | '+' :: r => (readNat r).map fun n => (n : Int)
  | '-' :: r => (readNat r).map fun n => -(n : Int)
  | _ => (readNat w).map fun n => (n : Int)

/-- `hex16`: up to four hexadecimal digits, with or without `0x`. -/
def readHex16 (w : List Char) : Option Snap :=
  let r := match w with
    | '0' :: 'x' :: r => r
    | _ => w
  if r.isEmpty ∨ 4 < r.length then none
  else (digitsFrom 16 hexDigit 0 r).map fun n => BitVec.ofNat 16 n

/-- A binary digit as a Boolean. -/
def readBit (c : Char) : Option Bool :=
  if c = '0' then some false else if c = '1' then some true else none

/-- `bits4`: `mute[3..0]`, track 3 first. -/
def readMute (w : List Char) : Option (PerTrack Bool) :=
  match w with
  | [c3, c2, c1, c0] =>
    match readBit c3, readBit c2, readBit c1, readBit c0 with
    | some b3, some b2, some b1, some b0 => some ⟨b0, b1, b2, b3⟩
    | _, _, _, _ => none
  | _ => none

/-- `trk`. -/
def readTrack (w : List Char) : Option Track :=
  if w = "0".toList then some .t0
  else if w = "1".toList then some .t1
  else if w = "2".toList then some .t2
  else if w = "3".toList then some .t3
  else none

/-- The `DIRTY` part of a `PASS` line. -/
def readDirty (ws : List (List Char)) : Option (Option Bool) :=
  match ws with
  | [] => some none
  | [k, [c]] => if k = "DIRTY".toList then (readBit c).map some else none
  | _ => none

/-- The options of a `PASS` line: `MUTE`, then `DIRTY`, each optional. -/
def readPass (now : Time) (ws : List (List Char)) : Option EventLine :=
  match ws with
  | k :: m :: rest =>
    if k = "MUTE".toList then
      match readMute m, readDirty rest with
      | some mu, some d => some (.pass now mu d)
      | _, _ => none
    else (readDirty ws).map fun d => .pass now (PerTrack.const false) d
  | _ => (readDirty ws).map fun d => .pass now (PerTrack.const false) d

/-- A line that is one keyword. -/
def readWord0 (k : List Char) : Option AsmLine :=
  if k = "RESET".toList then some (.instr .reset)
  else if k = "SEEDCLICK".toList then some (.instr .seedClick)
  else if k = "LENGTHCLICK".toList then some (.instr .lengthClick)
  else if k = "RETAIN".toList then some (.instr .retain)
  else if k = "SET".toList then some (.instr .set)
  else if k = "CLEAR".toList then some (.instr .clear)
  else if k = "RST".toList then some (.event .rst)
  else none

/-- A line that is a keyword and one operand. -/
def readWord1 (k a : List Char) : Option AsmLine :=
  if k = "TICK".toList then (readNat a).map fun n => .instr (.tick n)
  else if k = "SEED".toList then (readInt a).map fun d => .instr (.seed d)
  else if k = "LENGTH".toList then (readInt a).map fun d => .instr (.length d)
  else if k = "OFFSETCLICK".toList then (readTrack a).map fun t => .instr (.offsetClick t)
  else if k = "STEPSCLICK".toList then (readTrack a).map fun t => .instr (.stepsClick t)
  else if k = "CLK".toList then (readTime a).map fun t => .event (.clk t)
  else if k = "RSTCLK".toList then (readTime a).map fun t => .event (.rstclk t)
  else if k = "EXP0".toList then (readHex16 a).map fun v => .event (.exp0 v)
  else if k = "EXP1".toList then (readHex16 a).map fun v => .event (.exp1 v)
  else none

/-- A line that is a keyword, a track, a comma and a delta. -/
def readWord3 (k t d : List Char) : Option AsmLine :=
  match readTrack t, readInt d with
  | some t, some d =>
    if k = "OFFSET".toList then some (.instr (.offset t d))
    else if k = "STEPS".toList then some (.instr (.steps t d))
    else none
  | _, _ => none

/-- The words of a line as an item of R104; `none` where they are none. -/
def readWords (ws : List (List Char)) : Option AsmLine :=
  match ws with
  | [] => some .blank
  | k :: as =>
    if k = "PASS".toList then
      match as with
      | [] => none
      | t :: opts =>
        match readTime t with
        | some now => (readPass now opts).map fun e => .event e
        | none => none
    else
      match as with
      | [] => readWord0 k
      | [a] => readWord1 k a
      | [t, c, d] => if c = [','] then readWord3 k t d else none
      | _ => none

/-- One line of text. -/
def readLine (line : List Char) : Option AsmLine := readWords (lexLine line [])

end Sys2Proof.Machine
end

