-- ==== Sys2Proof/Machine/TestRun.lean ====
section
/-! DEFINITION. Finite test runs of a program: how one starts, when it has ended, and what its end state lists
(spec/70_reset_and_hazards.md R305). -/

namespace Sys2Proof.Machine

/-- The state after boot, with nothing queued: where a test run starts unless it names another start state
(R292, R305). -/
def bootResult : State := boot true State.reset

/-- The machine right after power-on reset with a program to run: the boot step comes first, and the program's events
follow it (R290, R292, R305; log entry 1). -/
def programFromReset (p : List EventLine) : State :=
  loadProgram p { State.reset with stim := [.boot true] }

/-- A test run has ended: its last event is over, or it has faulted (R305; DEDUCED, log entry 33). -/
def runEnded (s : State) : Bool := s.fault.isSome || (decide (s.pos = .idle) && s.stim.isEmpty)

/-- At most `n` steps, none after the end of the run. -/
def runFor : Nat → State → Out
  | 0, s => .next s
  | n + 1, s => if runEnded s then .next s else andThen (step s) (runFor n)

/-- A normal end; a run that faults ends in the fault state, and that is not one (R305). -/
def normalEnd (s : State) : Bool := runEnded s && s.fault.isNone

/-- The facts still in flight, which the end state of a run lists: `clk_pending`, `rst_pending`, the entries of
`expq[e]`, and every set `irq_pend[l]` (R305). -/
def factsInFlight (s : State) : Bool × Bool × PerExp (List Snap) × List Line :=
  (s.clkPending, s.rstPending, s.expq, [Line.clk, .rst, .exp0, .exp1].filter fun l => s.irqPend.get l)

end Sys2Proof.Machine
end

