-- ==== Sys2Proof/Safety.lean ====
section
/-! DEFINITION. What claims about runs are stated with: the launch premise, the invariant every step keeps, the two
storage domains, and the premises on infinite runs. -/

namespace Sys2Proof.Machine

/-- The launch premise `Legal(s)` (spec/70_reset_and_hazards.md R307). Premises 3 and 7 hold by the types of the
fields. -/
def Legal (s : State) : Prop :=
  s.fault = none ∧
  paramsLegal s.params ∧
  s.opq = [] ∧
  (∀ e, (s.expq.get e).length ≤ 64) ∧
  (∀ t, s.dpt.get t = distancePerTick (s.params.length.get t)) ∧
  (∀ t, s.level.get t = false → s.clearAt.get t = none) ∧
  (∀ t, s.gateHigh.get t = s.level.get t)

/-- What holds of every state that boot and the rules produce, inside a pass too. -/
structure Sound (s : State) : Prop where
  /-- Params is legal (spec/10_state.md R40, spec/42_sequencer.md R196). -/
  params : paramsLegal s.params
  /-- The expander queues hold at most 64 snapshots (spec/10_state.md R37). -/
  expq : ∀ e, (s.expq.get e).length ≤ 64
  /-- So do the lists a pass drained. -/
  dSnap : ∀ e, (s.dSnap.get e).length ≤ 64
  /-- The operation queue holds at most 64 words (R39). -/
  opqBound : s.opq.length ≤ 64
  /-- Its words are well formed (spec/30_encoding.md R94). -/
  opqWords : ∀ w ∈ s.opq, wordWellFormed w = true
  /-- It is empty outside line 5 of a pass (R39). -/
  opqEmpty : s.fault = none → s.pos ≠ .update → s.opq = []
  /-- A regeneration is owed only at line 5 (spec/42_sequencer.md R170). -/
  regenDone : s.pos ≠ .update → s.regen = false
  /-- `dpt` is that of the lengths, unless a regeneration is owed (R307 premise 6). -/
  dpt : s.regen = false → ∀ t, s.dpt.get t = distancePerTick (s.params.length.get t)
  /-- A track playhead is at most 63 (spec/10_state.md R43). -/
  tph : ∀ t, s.tph.get t ≤ 63
  /-- A low gate has no clear time (R307 premise 8). -/
  clearAt : ∀ t, s.level.get t = false → s.clearAt.get t = none
  /-- The gate-high flag follows the level (R307 premise 8). -/
  gateHigh : ∀ t, s.gateHigh.get t = s.level.get t
  /-- Duty is 0..100 (R49, R56). -/
  duty : ∀ t, s.duty.get t ≤ 100
  /-- The reserved gate command is never selected (spec/45_gate.md R247). -/
  gateCmd : s.gateCmd ≠ 0b11
  /-- The interrupts are enabled exactly when boot is done (spec/60_exceptions.md R270). -/
  enabled : s.irqEnabled = true ↔ s.pos ≠ .boot
  /-- No edge before the end of boot is recorded (spec/70_reset_and_hazards.md R292). -/
  noEarlyEdge : s.pos = .boot → ∀ l, s.irqPend.get l = false

/-- The invariant of every step. After a failed boot every state element but the fault code is unspecified
(R292), so nothing else is claimed there. -/
def Inv (s : State) : Prop := s.fault = some .bootConfig ∨ Sound s

/-! ### The two storage domains (spec/10_state.md R32) -/

/-- `s` with its capture-domain state (spec/10_state.md R35 to R38) blanked: two states with equal blankings differ in
the capture domain alone. -/
def outsideCapture (s : State) : State :=
  { s with
    clkPending := false
    clkTs := 0
    rstPending := false
    expq := ⟨[], []⟩
    irqPend := ⟨false, false, false, false⟩ }

/-- The capture-domain state. -/
def captureDomain (s : State) : Bool × Time × Bool × PerExp (List Snap) × PerLine Bool :=
  (s.clkPending, s.clkTs, s.rstPending, s.expq, s.irqPend)

/-- The capture events. -/
def isCapture (i : Instr) : Bool :=
  match i with
  | .tick _ => false
  | .reset => false
  | .seed _ => false
  | .seedClick => false
  | .length _ => false
  | .lengthClick => false
  | .offset _ _ => false
  | .offsetClick _ => false
  | .steps _ _ => false
  | .stepsClick _ => false
  | .retain => false
  | .set => false
  | .clear => false
  | .gcmdReserved => false
  | .clk _ => true
  | .rst => true
  | .rstclk _ => true
  | .exp0 _ => true
  | .exp1 _ => true

/-! ### Sequences -/

/-- Instructions one after another, each taken only from a next state. -/
def execAll : List Instr → State → Out
  | [], s => .next s
  | i :: is, s => andThen (exec i s) (execAll is)

/-- The results of `QStep` over a sequence of sampled pairs (spec/41_decode.md R147). -/
def qstepResults : Encoder → List (BitVec 2) → List Int
  | _, [] => []
  | e, p :: ps => (qstep e p).2 :: qstepResults (qstep e p).1 ps

/-- The place of an operation in the order of spec/41_decode.md R156; 22 for an instruction that is no operation. -/
def emitRank (i : Instr) : Nat :=
  match i with
  | .reset => 0
  | .tick _ => 1
  | .seed _ => 2
  | .seedClick => 3
  | .length _ => 4
  | .lengthClick => 5
  | .offset t _ => 6 + 4 * t.bits.toNat
  | .offsetClick t => 7 + 4 * t.bits.toNat
  | .steps t _ => 8 + 4 * t.bits.toNat
  | .stepsClick t => 9 + 4 * t.bits.toNat
  | .retain => 22
  | .set => 22
  | .clear => 22
  | .gcmdReserved => 22
  | .clk _ => 22
  | .rst => 22
  | .rstclk _ => 22
  | .exp0 _ => 22
  | .exp1 _ => 22

/-- The user operations (spec/42_sequencer.md R171, spec/90_conflicts.md C1), LENGTHCLICK among them. -/
def isUserOp (i : Instr) : Bool :=
  match i with
  | .tick _ => false
  | .reset => false
  | .seed _ => true
  | .seedClick => true
  | .length _ => true
  | .lengthClick => true
  | .offset _ _ => true
  | .offsetClick _ => true
  | .steps _ _ => true
  | .stepsClick _ => true
  | .retain => false
  | .set => false
  | .clear => false
  | .gcmdReserved => false
  | .clk _ => false
  | .rst => false
  | .rstclk _ => false
  | .exp0 _ => false
  | .exp1 _ => false

/-! ### Finite test runs -/

/-- A start state of a test run: the boot result, or a state between passes, boot done and nothing queued, that meets
`Legal` (spec/70_reset_and_hazards.md R305, R307). -/
def StartState (s : State) : Prop :=
  s = bootResult ∨ (Legal s ∧ s.irqEnabled = true ∧ s.pos = .idle ∧ s.stim = [])

/-- `t` is the end state of the test run of program `p` from `s` (R305). -/
def IsTestRun (p : List EventLine) (s t : State) : Prop :=
  StartState s ∧ runEnded t = true ∧ ∃ n, runFor n (loadProgram p s) = .next t

/-! ### Before the first Tick -/

/-- What holds from boot until a Tick is applied (spec/70_reset_and_hazards.md R294). The last two clauses are of
pass-local values, which hold after boot by the model's choice of their reset values (DESIGN CHOICE, log entry 13). -/
structure BeforeFirstTick (s : State) : Prop where
  tickCount : s.tickCount = 0
  tph : ∀ k, s.tph.get k = 0
  predicted : s.predicted = 0
  resetArmed : s.resetArmed = true
  phase : ∀ k, s.phase.get k = 0
  level : ∀ k, s.level.get k = false
  gateHigh : ∀ k, s.gateHigh.get k = false
  clearAt : ∀ k, s.clearAt.get k = none
  lastGateIndex : ∀ k, s.lastGateIndex.get k = none
  /-- No pass in progress has ticked. -/
  ticked : s.ticked = false
  /-- Every gate command so far is RETAIN. -/
  gateCmd : s.gateCmd = 0b00

/-- The next step applies a Tick. -/
def AppliesTick (s : State) : Prop :=
  s.fault = none ∧ ∃ r s1 n, fetch s = some (r, s1) ∧ decode r = .ok (.tick n)

/-! ### Premises on infinite runs -/

/-- An infinite run. -/
def IsRun (run : Nat → State) : Prop := ∀ n, step (run n) = .next (run (n + 1))

/-- The next step starts a pass with inputs `p`. -/
def StartsPass (s : State) (p : PassInput) : Prop :=
  s.fault = none ∧ s.pos = .idle ∧ (nextMove s).1 = .env (.pass p)

/-- Fairness of the dirty draws: no run has infinitely many consecutive passes with a pending fact and a stale
answer (spec/40_capture.md R125). -/
def FairDirty (run : Nat → State) : Prop :=
  ¬ ∃ n, (∀ m, n ≤ m → ∀ p, StartsPass (run m) p → factsPending (run m) = true ∧ dirtyAnswer p (run m) = false) ∧
    (∀ k, ∃ m, k ≤ m ∧ ∃ p, StartsPass (run m) p)

/-- Progress: a pending interrupt is serviced within finitely many steps while there is no fault
(spec/60_exceptions.md R271). -/
def Progress (run : Nat → State) : Prop :=
  ∀ n l, (run n).irqPend.get l = true →
    ∃ m, n ≤ m ∧ ((run m).irqPend.get l = false ∨ (run m).fault ≠ none)

/-- Passes keep running: as long as there is no fault, another pass starts (spec/70_reset_and_hazards.md R306, R305). -/
def KeepsPassesRunning (run : Nat → State) : Prop :=
  ∀ n, (run n).fault = none → ∃ m, n ≤ m ∧ ((run m).fault ≠ none ∨ ∃ p, StartsPass (run m) p)

/-- An infinite run whose environment keeps its duties (R306): the dirty draws are fair, pending interrupts are
serviced, and passes keep running. The fourth duty, the order of the time values, needs no premise: a step that breaks
it is refused (log entry 4). -/
def EnvironmentKeepsDuties (run : Nat → State) : Prop :=
  IsRun run ∧ FairDirty run ∧ Progress run ∧ KeepsPassesRunning run

end Sys2Proof.Machine
end

