-- ==== Sys2Proof/Certificates/Slice0/Obligations.lean ====
section
/-! DEFINITION. The statements for the provers. Each docstring says which rule of spec/ a statement formalises. -/

open Sys2Proof Sys2Proof.Machine

/-! ### Encodings -/

/-- Decode and encode agree on every well-formed instruction (spec/30_encoding.md R90 to R97). -/
def Obligations.EncodedInstructionDecodesBack : Prop :=
  ∀ i : Instr, i.wellFormed = true → decode (encode i) = .ok i

/-- Every pattern of bits that decodes is the encoding of the instruction it decodes to, and that instruction is well
formed: each word has one meaning and no bit is dropped (for queue words and gate commands spec/30_encoding.md R94 and
R95). For capture records this rests on the model's own refusal of an operand beside RST and of one wider than 16 bits
beside EXP0 and EXP1, of which R97 says nothing (DESIGN CHOICE, log entry 19). -/
def Obligations.DecodedBitsEncodeBack : Prop :=
  ∀ (r : Raw) (i : Instr), decode r = .ok i → encode i = r ∧ i.wellFormed = true

/-- The words that decode are those that meet the four conditions of spec/30_encoding.md R94, the fields read as
arithmetic on the word. -/
def Obligations.QueueWordDecodesIffWellFormed : Prop :=
  ∀ w : OpWord, (∃ i, decode (.opw w) = .ok i) ↔
    (w.toNat % 16 ≤ 9 ∧ w.toNat / 64 % 2 ^ 26 = 0 ∧
      (w.toNat % 16 ≤ 5 → w.toNat / 16 % 4 = 0) ∧
      (w.toNat % 16 ∈ [1, 3, 5, 7, 9] → w.toNat / 2 ^ 32 = 0))

/-- `Enc` builds `pay << 32 | trk << 4 | opc` with unused fields 0, and the seven examples
(spec/30_encoding.md R93). -/
def Obligations.EncoderLaysOutFields : Prop :=
  (∀ (n : Nat) (d : Int) (t : Track), n < 2 ^ 32 →
    encode (.tick n) = .opw (BitVec.ofNat 64 (n * 2 ^ 32)) ∧
    encode .reset = .opw 1 ∧
    encode (.seed d) = .opw (BitVec.ofInt 64 (d % 2 ^ 32 * 2 ^ 32 + 2)) ∧
    encode .seedClick = .opw 3 ∧
    encode (.length d) = .opw (BitVec.ofInt 64 (d % 2 ^ 32 * 2 ^ 32 + 4)) ∧
    encode .lengthClick = .opw 5 ∧
    encode (.offset t d) = .opw (BitVec.ofInt 64 (d % 2 ^ 32 * 2 ^ 32 + t.bits.toNat * 16 + 6)) ∧
    encode (.offsetClick t) = .opw (BitVec.ofNat 64 (t.bits.toNat * 16 + 7)) ∧
    encode (.steps t d) = .opw (BitVec.ofInt 64 (d % 2 ^ 32 * 2 ^ 32 + t.bits.toNat * 16 + 8)) ∧
    encode (.stepsClick t) = .opw (BitVec.ofNat 64 (t.bits.toNat * 16 + 9))) ∧
  encode (.tick 1000) = .opw 0x000003E800000000 ∧
  encode .reset = .opw 0x0000000000000001 ∧
  encode (.seed (-1)) = .opw 0xFFFFFFFF00000002 ∧
  encode (.length 1) = .opw 0x0000000100000004 ∧
  encode (.offset .t2 3) = .opw 0x0000000300000026 ∧
  encode (.steps .t1 (-1)) = .opw 0xFFFFFFFF00000018 ∧
  encode (.stepsClick .t3) = .opw 0x0000000000000039

/-- A word of each family, written out from the tables of spec/30_encoding.md R91, R96 and R97, decodes to the
instruction it stands for; four malformed words and a reserved code do not decode (R94, R97). -/
def Obligations.WrittenOutWordsDecode : Prop :=
  decode (.opw 0x000001F400000000) = .ok (.tick 500) ∧
  decode (.opw 0x8000000000000036) = .ok (.offset .t3 (-2147483648)) ∧
  decode (.opw 0x0000000100000018) = .ok (.steps .t1 1) ∧
  decode (.gcmd 0b01) = .ok .set ∧
  decode (.gcmd 0b10) = .ok .clear ∧
  decode (.capevt 0x00 1000) = .ok (.clk 1000) ∧
  decode (.capevt 0x04 0x0007) = .ok (.exp1 0x0007) ∧
  decode (.opw 0x000000000000000A) = .error .reservedOpcode ∧
  decode (.opw 0x0000000000000041) = .error .reservedBits ∧
  decode (.opw 0x0000000000000011) = .error .strayTrack ∧
  decode (.opw 0x0000000500000003) = .error .strayPayload ∧
  decode (.capevt 0x05 0) = .error .reservedEvent

/-- The codes of the control fields and the phases added, as the tables give them; every mode, sync policy and waveform
mode is the meaning of its code, the other codes mean nothing, and cycling by a delta adds to the code modulo 3 and 12
(spec/30_encoding.md R99, R100, R101). -/
def Obligations.ControlCodesAndCycling : Prop :=
  (([.run, .seed, .fate, .length,
      .offset .t0, .offset .t1, .offset .t2, .offset .t3, .lfo .t0, .lfo .t1, .lfo .t2, .lfo .t3,
      .steps .t0, .steps .t1, .steps .t2, .steps .t3,
      .trackSync .t0, .trackSync .t1, .trackSync .t2, .trackSync .t3] : List Mode).map fun m => (modeCode m).toNat) =
    [0, 4, 8, 12, 16, 17, 18, 19, 20, 21, 22, 23, 24, 25, 26, 27, 28, 29, 30, 31] ∧
  (([.sync, .free, .loop] : List SyncPolicy).map fun p => (syncCode p).toNat) = [0, 1, 2] ∧
  (([.random, .sawUp, .sawDown, .sine, .sine90, .sine180, .tri, .tri90, .tri180, .square, .square90, .square180] :
      List LfoMode).map fun m => (lfoCode m).toNat) = [0, 1, 2, 3, 4, 5, 6, 7, 8, 9, 10, 11] ∧
  (([.sawUp, .sawDown, .sine, .sine90, .sine180, .tri, .tri90, .tri180, .square, .square90, .square180] :
      List LfoMode).map fun m => (phaseAdd m).toNat) =
    [0, 0, 0, 2 ^ 30, 2 ^ 31, 0, 2 ^ 30, 2 ^ 31, 0, 2 ^ 30, 2 ^ 31] ∧
  (∀ m : Mode, modeOfCode (modeCode m) = some m) ∧
  (∀ c : BitVec 5, modeOfCode c = none ↔ c.toNat < 16 ∧ c.toNat % 4 ≠ 0) ∧
  (∀ p : SyncPolicy, syncOfCode (syncCode p) = some p) ∧
  (∀ c : BitVec 2, syncOfCode c = none ↔ c = 3) ∧
  (∀ m : LfoMode, lfoOfCode (lfoCode m) = some m) ∧
  (∀ c : BitVec 4, lfoOfCode c = none ↔ 12 ≤ c.toNat) ∧
  (∀ (p : SyncPolicy) (d : Int), ((syncCode (cycleSync p d)).toNat : Int) = ((syncCode p).toNat + d) % 3) ∧
  (∀ (m : LfoMode) (d : Int), ((lfoCode (cycleLfo m d)).toNat : Int) = ((lfoCode m).toNat + d) % 12)

/-! ### A step runs the decoded instruction -/

/-- When the bits the machine fetches decode to an instruction, the step is that instruction's meaning on the state
past them; and where the bits lie: the oldest queue word at line 5 (spec/42_sequencer.md R170), the selected command at
line 8 (spec/45_gate.md R240), the capture event that comes next (spec/60_exceptions.md R269). Past a gate command the
pass goes on to the next of tracks 0 to 3, and ends past that of track 3 (spec/40_capture.md R127 line 8). -/
def Obligations.FetchedInstructionRuns : Prop :=
  (∀ (s s1 : State) (r : Raw) (i : Instr),
    s.fault = none → fetch s = some (r, s1) → decode r = .ok i → timeOrdered i s1 = true → step s = exec i s1) ∧
  (∀ (s : State) (w : OpWord) (ws : List OpWord),
    s.pos = .update → s.opq = w :: ws → s.stim = [] → fetch s = some (.opw w, { s with opq := ws })) ∧
  (∀ s : State,
    s.pos = .apply → s.stim = [] → fetch s = some (.gcmd s.gateCmd, { s with pos := afterGate s.gateTrk })) ∧
  (afterGate .t0 = .gate .t1 ∧ afterGate .t1 = .gate .t2 ∧ afterGate .t2 = .gate .t3 ∧ afterGate .t3 = .idle) ∧
  (∀ (s : State) (code : BitVec 8) (operand : BitVec 64) (rest : List Stimulus),
    s.pos = .idle → s.stim = .capture code operand :: rest →
      fetch s = some (.capevt code operand, { s with stim := rest }))

/-- Every instruction completes: placed where the step fetches it, the step answers a next state (the model's way of
placing one, log entry 1; the instructions' rules R120 to R123, R172 to R181, R244 to R247 name no other outcome). -/
def Obligations.PlacedInstructionCompletes : Prop :=
  ∀ (s : State) (nbits w : Nat) (r : Raw) (i : Instr),
    rawOfTableWord nbits w = some r → decode r = .ok i →
      ∃ s1 t, fetch (s.withFetchWord nbits w) = some (r, s1) ∧ step (s.withFetchWord nbits w) = exec i s1 ∧
        exec i s1 = .next t

/-- Bits that decode to nothing: a popped queue word that is not well formed raises RESERVED_OP, with the word gone, the
later words in place and nothing else changed; a capture code 0x05..0xFF is refused (spec/30_encoding.md R94, R97,
spec/42_sequencer.md R170, spec/60_exceptions.md R262). -/
def Obligations.UndecodableBitsRaiseOrAreRefused : Prop :=
  (∀ (s : State) (w : OpWord) (ws : List OpWord),
    s.fault = none → s.pos = .update → s.stim = [] → s.opq = w :: ws → (∀ i, decode (.opw w) ≠ .ok i) →
      step s = .next { s with opq := ws, fault := some .reservedOp }) ∧
  (∀ (s : State) (code : BitVec 8) (operand : BitVec 64) (rest : List Stimulus),
    s.fault = none → s.pos = .idle → s.stim = .capture code operand :: rest → 5 ≤ code.toNat →
      step s = .refused (.reservedEvent .reservedEvent))

/-! ### Captures -/

/-- A clock capture clears its pending flag, sets the latch and keeps the newest timestamp; a reset capture clears its
flag and sets its latch; one invocation that observes both is the reset capture and then the clock capture, in one step;
nothing else changes (spec/40_capture.md R120, R121, R122). -/
def Obligations.ClockAndResetCaptures : Prop :=
  ∀ (ts : Time) (s : State), s.fault = none →
    (s.irqPend.clk = true →
      exec (.clk ts) s = .next { s with irqPend := { s.irqPend with clk := false }, clkPending := true, clkTs := ts }) ∧
    (s.irqPend.rst = true →
      exec .rst s = .next { s with irqPend := { s.irqPend with rst := false }, rstPending := true }) ∧
    (s.irqPend.rst = true → s.irqPend.clk = true →
      exec (.rstclk ts) s = andThen (exec .rst s) (exec (.clk ts)) ∧
      exec (.rstclk ts) s = .next
        { s with
          irqPend := { s.irqPend with rst := false, clk := false }
          rstPending := true, clkPending := true, clkTs := ts })

/-- An expander capture appends its snapshot; a full queue first drops its oldest entry, so the queue holds the newest
64 snapshots; no fault and no flag records the loss (spec/20_memory.md R75). -/
def Obligations.ExpanderCaptureKeepsNewest64 : Prop :=
  (∀ (v : Snap) (s : State), s.fault = none → s.irqPend.exp0 = true → s.expq.e0.length ≤ 64 →
    exec (.exp0 v) s = .next
      { s with
        irqPend := { s.irqPend with exp0 := false }
        expq := { s.expq with e0 := (s.expq.e0 ++ [v]).drop (s.expq.e0.length + 1 - 64) } }) ∧
  (∀ (v : Snap) (s : State), s.fault = none → s.irqPend.exp1 = true → s.expq.e1.length ≤ 64 →
    exec (.exp1 v) s = .next
      { s with
        irqPend := { s.irqPend with exp1 := false }
        expq := { s.expq with e1 := (s.expq.e1 ++ [v]).drop (s.expq.e1.length + 1 - 64) } })

/-- A capture whose line has no pending interrupt is no step: its trigger does not hold
(spec/40_capture.md R120 to R123; the refusal is the model's, log entry 5). -/
def Obligations.CaptureWithoutPendingRefused : Prop :=
  ∀ (ts : Time) (v : Snap) (s : State), s.fault = none →
    (s.irqPend.clk = false → exec (.clk ts) s = .refused (.captureNotPending .clk)) ∧
    (s.irqPend.rst = false → exec .rst s = .refused (.captureNotPending .rst)) ∧
    (s.irqPend.rst = false → exec (.rstclk ts) s = .refused (.captureNotPending .rst)) ∧
    (s.irqPend.rst = true → s.irqPend.clk = false → exec (.rstclk ts) s = .refused (.captureNotPending .clk)) ∧
    (s.irqPend.exp0 = false → exec (.exp0 v) s = .refused (.captureNotPending .exp0)) ∧
    (s.irqPend.exp1 = false → exec (.exp1 v) s = .refused (.captureNotPending .exp1))

/-- Captures of different lines commute, whichever other lines are pending, and both run; so the order among pending
lines is unobservable (spec/60_exceptions.md R269, R271). -/
def Obligations.CapturesOfDifferentLinesCommute : Prop :=
  ∀ (ts : Time) (v0 v1 : Snap) (s : State) (a b : Line × Instr),
    a ∈ [(Line.clk, Instr.clk ts), (.rst, .rst), (.exp0, .exp0 v0), (.exp1, .exp1 v1)] →
    b ∈ [(Line.clk, Instr.clk ts), (.rst, .rst), (.exp0, .exp0 v0), (.exp1, .exp1 v1)] →
    a.1 ≠ b.1 → s.fault = none → s.irqPend.get a.1 = true → s.irqPend.get b.1 = true →
      ∃ t, andThen (exec a.2 s) (exec b.2) = .next t ∧ andThen (exec b.2 s) (exec a.2) = .next t

/-- The capture agent writes only the capture domain, and no other instruction writes it; and a capture reads nothing of
the pass domain but the absence of a fault: two states that agree on the capture domain get the same one
(spec/10_state.md R32, spec/40_capture.md R124). -/
def Obligations.InstructionsKeepToTheirDomain : Prop :=
  (∀ (i : Instr) (s t : State), exec i s = .next t →
    (isCapture i = true → outsideCapture t = outsideCapture s) ∧
    (isCapture i = false → captureDomain t = captureDomain s)) ∧
  (∀ (i : Instr) (s s' t : State), isCapture i = true → s.fault = none → s'.fault = none →
    captureDomain s = captureDomain s' → exec i s = .next t →
      ∃ t', exec i s' = .next t' ∧ captureDomain t' = captureDomain t)

/-- A falling edge sets its line's pending flag and nothing else, at any time once boot has enabled the interrupts,
between passes or inside one; before that it is not recorded; an edge while the flag is set changes nothing
(spec/60_exceptions.md R267, R268, spec/70_reset_and_hazards.md R292; the marker of an edge inside a pass is the model's,
log entry 26). -/
def Obligations.EdgeSetsPendingFlag : Prop :=
  ∀ (s : State) (l : Line) (rest : List Stimulus), s.fault = none →
    ((s.pos = .idle ∨ s.pos = .boot) ∧ s.stim = .edge l :: rest) ∨
      (s.pos ≠ .idle ∧ s.pos ≠ .boot ∧ s.stim = .preempt :: .edge l :: rest) →
    (s.irqEnabled = true → step s = .next { s with stim := rest, irqPend := s.irqPend.set l true }) ∧
    (s.irqEnabled = false → step s = .next { s with stim := rest }) ∧
    (s.irqPend.get l = true → step s = .next { s with stim := rest })

/-! ### Playhead operations -/

/-- TICK: its result and its frame (spec/42_sequencer.md R172). -/
def Obligations.TickResult : Prop :=
  ∀ (n : Nat) (s : State), n < 2 ^ 32 → s.fault = none →
    ∃ t, exec (.tick n) s = .next t ∧
      t = { s with
            lastTickTime := s.now
            pst := (Config.predict s.pst (BitVec.ofNat 64 n)).1
            predicted := (Config.predict s.pst (BitVec.ofNat 64 n)).2
            tickCount := t.tickCount
            gph := t.gph
            resetArmed := false
            tph := t.tph
            ticked := true } ∧
      t.tickCount.toNat = (s.tickCount.toNat + 1) % 2 ^ 32 ∧
      t.gph.toNat = (if s.resetArmed = true then 0 else (s.gph.toNat + 1) % 2 ^ 32)

/-- Right after any Tick each track's playhead obeys the law of its sync policy, with the lengths as they are at the
Tick; a Reset leaves the tick counter and every playhead (spec/42_sequencer.md R195). -/
def Obligations.PlayheadLaws : Prop :=
  (∀ (n : Nat) (s t : State) (k : Track), exec (.tick n) s = .next t →
    t.params = s.params ∧ t.sync = s.sync ∧
    (s.sync.get k = .sync → t.tph.get k = t.gph.toNat % min s.params.patternLength (s.params.length.get k)) ∧
    (s.sync.get k = .free → t.tph.get k = t.gph.toNat % s.params.length.get k) ∧
    (s.sync.get k = .loop → t.tph.get k = t.tickCount.toNat % s.params.length.get k)) ∧
  (∀ s t : State, exec .reset s = .next t → t.tickCount = s.tickCount ∧ t.tph = s.tph)

/-- RESET clears the predictor's history and arms the restart, and changes nothing else; a Tick after it moves the global
playhead to 0, and with it every track that is not Loop (spec/41_decode.md R143, spec/42_sequencer.md R172, R173,
spec/70_reset_and_hazards.md R295). -/
def Obligations.ResetThenTickRestarts : Prop :=
  ∀ (n : Nat) (s : State), s.fault = none →
    exec .reset s = .next { s with pst := Config.preset s.pst, resetArmed := true } ∧
    ∃ t, andThen (exec .reset s) (exec (.tick n)) = .next t ∧ t.gph = 0 ∧
      (∀ k, s.sync.get k ≠ .loop → t.tph.get k = 0) ∧
      t.tickCount.toNat = (s.tickCount.toNat + 1) % 2 ^ 32

/-! ### Parameter operations -/

/-- SEED outside Fate mode: a value in 0..9999 is taken, marks a regeneration, shows the seed and is accepted; any other
value changes nothing (spec/42_sequencer.md R174). -/
def Obligations.SeedEdit : Prop :=
  ∀ (d : Int) (s : State), s.fault = none → s.mode ≠ .fate →
    (∀ v : Nat, (s.params.seed : Int) + d = v → v ≤ 9999 →
      exec (.seed d) s = .next
        { s with params := { s.params with seed := v }, regen := true, mode := .seed, acted := true }) ∧
    (((s.params.seed : Int) + d < 0 ∨ 9999 < (s.params.seed : Int) + d) → exec (.seed d) s = .next s)

/-- SEED in Fate mode draws lengths, steps, offsets and seed from their sets, arms the restart, marks a regeneration and
is accepted; the mode, the pattern length and everything else stay (spec/42_sequencer.md R174, R192, R193). Holds for
every value of the draws (log entry 8). -/
def Obligations.FateDrawsStayInTheirSets : Prop :=
  ∀ (d : Int) (s : State), s.fault = none → s.mode = .fate →
    ∃ t, exec (.seed d) s = .next t ∧
      t = { s with params := t.params, regen := true, resetArmed := true, acted := true, freeIdx := t.freeIdx } ∧
      t.params.patternLength = s.params.patternLength ∧
      t.params.seed ≤ 9999 ∧
      ∀ k,
        (t.params.length.get k ∈ [2, 4, 8, 16, 32, 64] ∨
          (t.params.length.get k ∈ Config.rawFateLengths ∧ 2 ≤ t.params.length.get k ∧ t.params.length.get k ≤ 64)) ∧
        t.params.steps.get k ≤ t.params.length.get k ∧
        t.params.offset.get k < t.params.length.get k

/-- The clicks toggle the mode: to the alternate display unless it is shown already, and then to the plain one; they are
accepted and change nothing else (spec/42_sequencer.md R175, R179, R181). -/
def Obligations.ClicksToggleMode : Prop :=
  ∀ (k : Track) (s : State), s.fault = none →
    (s.mode = .fate → exec .seedClick s = .next { s with mode := .seed, acted := true }) ∧
    (s.mode ≠ .fate → exec .seedClick s = .next { s with mode := .fate, acted := true }) ∧
    (s.mode = .lfo k → exec (.offsetClick k) s = .next { s with mode := .offset k, acted := true }) ∧
    (s.mode ≠ .lfo k → exec (.offsetClick k) s = .next { s with mode := .lfo k, acted := true }) ∧
    (s.mode = .trackSync k → exec (.stepsClick k) s = .next { s with mode := .steps k, acted := true }) ∧
    (s.mode ≠ .trackSync k → exec (.stepsClick k) s = .next { s with mode := .trackSync k, acted := true })

/-- LENGTH takes a value in 2..64 in every mode and rejects any other with no effect; LENGTHCLICK has no effect
(spec/42_sequencer.md R176, R177). -/
def Obligations.LengthOperations : Prop :=
  ∀ (d : Int) (s : State), s.fault = none →
    (∀ v : Nat, (s.params.patternLength : Int) + d = v → 2 ≤ v → v ≤ 64 →
      exec (.length d) s = .next
        { s with params := { s.params with patternLength := v }, regen := true, mode := .length, acted := true }) ∧
    (((s.params.patternLength : Int) + d < 2 ∨ 64 < (s.params.patternLength : Int) + d) →
      exec (.length d) s = .next s) ∧
    exec .lengthClick s = .next s

/-- OFFSET in its track's Lfo mode cycles the waveform mode modulo 12 and keeps the mode; in any other mode it moves the
offset modulo the track's length and shows it; nothing else changes (spec/42_sequencer.md R178). -/
def Obligations.OffsetEdit : Prop :=
  ∀ (k : Track) (d : Int) (s : State), s.fault = none →
    (s.mode = .lfo k → ∃ m : LfoMode,
      exec (.offset k d) s = .next { s with lfoMode := s.lfoMode.set k m, regen := true, acted := true } ∧
      ((lfoCode m).toNat : Int) = ((lfoCode (s.lfoMode.get k)).toNat + d) % 12) ∧
    (s.mode ≠ .lfo k → 0 < s.params.length.get k → ∃ o : Nat,
      exec (.offset k d) s = .next
        { s with
          params := { s.params with offset := s.params.offset.set k o }
          regen := true, mode := .offset k, acted := true } ∧
      (o : Int) = ((s.params.offset.get k : Int) + d) % (s.params.length.get k : Int))

/-- STEPS in its track's TrackSync mode cycles the sync policy modulo 3 with no regeneration; in any other mode it takes
`|d|` unit steps, reduces the offset modulo the new length, marks a regeneration and shows the steps; nothing else
changes (spec/42_sequencer.md R180, R183). -/
def Obligations.StepsEdit : Prop :=
  ∀ (k : Track) (d : Int) (s : State), s.fault = none →
    (s.mode = .trackSync k → ∃ p : SyncPolicy,
      exec (.steps k d) s = .next { s with sync := s.sync.set k p, acted := true } ∧
      ((syncCode p).toNat : Int) = ((syncCode (s.sync.get k)).toNat + d) % 3) ∧
    (s.mode ≠ .trackSync k → ∃ n len : Nat,
      (n, len) = (stepOne (decide (0 < d)))^[d.natAbs] (s.params.steps.get k, s.params.length.get k) ∧
      exec (.steps k d) s = .next
        { s with
          params :=
            { s.params with
              steps := s.params.steps.set k n
              length := s.params.length.set k len
              offset := s.params.offset.set k (s.params.offset.get k % len) }
          regen := true, mode := .steps k, acted := true })

/-- One unit step, case by case on a legal pair: a step up past the length grows it and restarts the steps at 0, a step
down below 0 shrinks it and puts the steps at the new length, and the results are clamped
(spec/42_sequencer.md R182). -/
def Obligations.UnitStepWrapsThenClamps : Prop :=
  (∀ n len : Nat, 2 ≤ len → len ≤ 64 → n ≤ len →
    stepOne true (n, len) =
      (if n < len then (n + 1, len) else if len < 64 then (0, len + 1) else (0, 64)) ∧
    stepOne false (n, len) =
      (if 0 < n then (n - 1, len) else if 2 < len then (len - 1, len - 1) else (1, 2))) ∧
  stepOne true (2, 2) = (0, 3) ∧
  stepOne false (0, 5) = (4, 4) ∧
  stepOne true (64, 64) = (0, 64) ∧
  stepOne false (0, 2) = (1, 2)

/-- After any sequence of instructions from a state with legal Params, Params is legal
(spec/42_sequencer.md R196). -/
def Obligations.ParamsStayInBounds : Prop :=
  ∀ (is : List Instr) (s t : State), execAll is s = .next t →
    (s.params.seed ≤ 9999 ∧ 2 ≤ s.params.patternLength ∧ s.params.patternLength ≤ 64 ∧
      ∀ k, 2 ≤ s.params.length.get k ∧ s.params.length.get k ≤ 64 ∧
        s.params.steps.get k ≤ s.params.length.get k ∧ s.params.offset.get k < s.params.length.get k) →
    (t.params.seed ≤ 9999 ∧ 2 ≤ t.params.patternLength ∧ t.params.patternLength ≤ 64 ∧
      ∀ k, 2 ≤ t.params.length.get k ∧ t.params.length.get k ≤ 64 ∧
        t.params.steps.get k ≤ t.params.length.get k ∧ t.params.offset.get k < t.params.length.get k)

/-- An operation is accepted exactly when it is a user operation that takes effect: not LENGTHCLICK, not a SEED or a
LENGTH whose delta is rejected as out of range; the playhead operations never are. A user operation that is not accepted
changes nothing (spec/42_sequencer.md R171). -/
def Obligations.OnlyEffectiveUserOperationsAreAccepted : Prop :=
  ∀ (i : Instr) (s t : State), exec i s = .next t → s.acted = false →
    (t.acted = true ↔
      isUserOp i = true ∧ i ≠ .lengthClick ∧
      (∀ d, i = .seed d → s.mode = .fate ∨ (0 ≤ (s.params.seed : Int) + d ∧ (s.params.seed : Int) + d ≤ 9999)) ∧
      (∀ d, i = .length d →
        2 ≤ (s.params.patternLength : Int) + d ∧ (s.params.patternLength : Int) + d ≤ 64)) ∧
    (isUserOp i = true → t.acted = false → t = s)

/-- With the operation queue empty and no operation before it, the end of `Update` writes nothing; `ticked` is as the
pass began, false (spec/42_sequencer.md R194). -/
def Obligations.EmptyUpdateWritesNothing : Prop :=
  ∀ s : State, s.fault = none → s.pos = .update → s.stim = [] → s.opq = [] → s.regen = false → s.acted = false →
    s.ticked = false → ∃ t, step s = .next t ∧ t.ticked = false ∧ t = { s with pos := .time }

/-- After a pass's last operation one regeneration recomputes the derived data from the current Params if one is owed,
and none happens otherwise; an accepted operation stamps `last_action`, and nothing else does; nothing else changes,
`ticked` among it (spec/42_sequencer.md R170, R171, R190). -/
def Obligations.UpdateEndRegenerates : Prop :=
  ∀ s : State, s.fault = none → s.pos = .update → s.stim = [] → s.opq = [] →
    ∃ t, step s = .next t ∧
      t = { s with
            patterns := t.patterns, table := t.table, dpt := t.dpt, randIdx := t.randIdx
            lastAction := (if s.acted = true then s.now else s.lastAction)
            regen := false, acted := false, pos := .time } ∧
      (s.regen = false →
        t.patterns = s.patterns ∧ t.table = s.table ∧ t.dpt = s.dpt ∧ t.randIdx = s.randIdx) ∧
      (s.regen = true → ∀ k,
        let g : GenInput :=
            { seed := Config.seedBase + s.params.seed
              patternLength := s.params.patternLength
              tracks := PerTrack.ofFn fun u => (s.params.offset.get u, s.params.steps.get u, s.params.length.get u) }
        t.patterns.get k = Config.genPattern g k ∧
        t.table.get k = Config.genTable g k ∧
        (t.dpt.get k).toNat = 4294967295 / s.params.length.get k ∧
        t.randIdx.get k = 0)

/-! ### Gate scheduler -/

/-- `GateTick` selects SET or CLEAR in a pass that ticked and moved the track's playhead, SET when the pattern bit is on
and the track is not muted, and records the playhead; in any other pass it selects RETAIN; a pattern index past the end
reads false (spec/45_gate.md R240 to R243). -/
def Obligations.GateCommandSelection : Prop :=
  ∀ (k : Track) (s : State), s.fault = none → s.pos = .gate k → s.stim = [] →
    ((s.ticked = false ∨ s.lastGateIndex.get k = some (s.tph.get k)) →
      step s = .next { s with gateTrk := k, gateCmd := 0b00, pos := .apply }) ∧
    (s.ticked = true → s.lastGateIndex.get k ≠ some (s.tph.get k) →
      ((s.patterns.get k)[s.tph.get k]? = some true ∧ s.mute.get k = false) →
      step s = .next
        { s with
          gateTrk := k, gateCmd := 0b01, pos := .apply
          lastGateIndex := s.lastGateIndex.set k (some (s.tph.get k)) }) ∧
    (s.ticked = true → s.lastGateIndex.get k ≠ some (s.tph.get k) →
      ((s.patterns.get k)[s.tph.get k]? ≠ some true ∨ s.mute.get k = true) →
      step s = .next
        { s with
          gateTrk := k, gateCmd := 0b10, pos := .apply
          lastGateIndex := s.lastGateIndex.set k (some (s.tph.get k)) })

/-- SET drives the served track's gate active and records the clear time `now + (predicted * duty) div 100`; on a rising
edge in Random mode it samples the next table entry and emits it, whatever was emitted last; nothing else changes
(spec/45_gate.md R244, spec/44_lfo.md R227, R228). -/
def Obligations.SetResult : Prop :=
  ∀ s : State, s.fault = none → paramsLegal s.params →
    s.now.toNat + s.predicted.toNat * s.duty.get s.gateTrk / 100 < 2 ^ 64 →
    ∃ c : Time, c.toNat = s.now.toNat + s.predicted.toNat * s.duty.get s.gateTrk / 100 ∧
      ((s.gateHigh.get s.gateTrk = true ∨ s.lfoMode.get s.gateTrk ≠ .random) →
        exec .set s = .next
          { s with
            level := s.level.set s.gateTrk true
            clearAt := s.clearAt.set s.gateTrk (some c)
            gateHigh := s.gateHigh.set s.gateTrk true }) ∧
      (s.gateHigh.get s.gateTrk = false → s.lfoMode.get s.gateTrk = .random →
        ∃ v : Sample,
          (s.table.get s.gateTrk).toList[s.randIdx.get s.gateTrk %
              (if 1 ≤ s.params.steps.get s.gateTrk then s.params.steps.get s.gateTrk
               else s.params.length.get s.gateTrk)]? = some v ∧
          exec .set s = .next
            { s with
              level := s.level.set s.gateTrk true
              clearAt := s.clearAt.set s.gateTrk (some c)
              gateHigh := s.gateHigh.set s.gateTrk true
              lastOut := s.lastOut.set s.gateTrk (some v)
              dac := s.dac ++ [(s.gateTrk, v)]
              randIdx := s.randIdx.set s.gateTrk (s.randIdx.get s.gateTrk + 1) })

/-- SET whose clear time does not fit 64 bits: the gate goes active all the same, and the clear time is some value,
whichever (the spec states none; DESIGN CHOICE, log entry 9). -/
def Obligations.SetBeyondTimeRangeStillSets : Prop :=
  ∀ s : State, s.fault = none →
    2 ^ 64 ≤ s.now.toNat + s.predicted.toNat * s.duty.get s.gateTrk / 100 →
    ∃ t, exec .set s = .next t ∧ t.level = s.level.set s.gateTrk true ∧
      t.gateHigh = s.gateHigh.set s.gateTrk true ∧ ∃ c, t.clearAt = s.clearAt.set s.gateTrk (some c)

/-- CLEAR drives the served track's gate inactive and cancels its clear time; RETAIN does so exactly when a clear time
has come, and nothing otherwise (spec/45_gate.md R245, R246). -/
def Obligations.ClearAndRetainResults : Prop :=
  ∀ s : State, s.fault = none →
    exec .clear s = .next
      { s with
        level := s.level.set s.gateTrk false
        clearAt := s.clearAt.set s.gateTrk none
        gateHigh := s.gateHigh.set s.gateTrk false } ∧
    (∀ c, s.clearAt.get s.gateTrk = some c → c.toNat ≤ s.now.toNat →
      exec .retain s = .next
        { s with
          level := s.level.set s.gateTrk false
          clearAt := s.clearAt.set s.gateTrk none
          gateHigh := s.gateHigh.set s.gateTrk false }) ∧
    (∀ c, s.clearAt.get s.gateTrk = some c → s.now.toNat < c.toNat → exec .retain s = .next s) ∧
    (s.clearAt.get s.gateTrk = none → exec .retain s = .next s)

/-- Gate command 0b11 raises RESERVED_OP and changes nothing else; command selection never selects it
(spec/45_gate.md R247). -/
def Obligations.ReservedGateCommandRaises : Prop :=
  (∀ s : State, s.fault = none → exec .gcmdReserved s = .next { s with fault := some .reservedOp }) ∧
  (∀ (k : Track) (s : State), (gateSelect k s).gateCmd ≠ 0b11)

/-- After a SET at `n0` with duty 50 and a predicted interval of 1000, every RETAIN before `n0 + 500` leaves the gate
high, the first one at or after it clears it, and later ones change nothing (spec/45_gate.md R249). -/
def Obligations.DutyScenario : Prop :=
  ∀ (s t : State), s.duty.get s.gateTrk = 50 → s.predicted = 1000 → s.now.toNat + 500 < 2 ^ 64 →
    exec .set s = .next t →
    t.level.get s.gateTrk = true ∧
    t.clearAt.get s.gateTrk = some (s.now + 500) ∧
    (∀ n : Time, n.toNat < s.now.toNat + 500 → exec .retain { t with now := n } = .next { t with now := n }) ∧
    (∀ n : Time, s.now.toNat + 500 ≤ n.toNat →
      ∃ u, exec .retain { t with now := n } = .next u ∧ u.level.get s.gateTrk = false ∧
        u.clearAt.get s.gateTrk = none ∧
        ∀ m : Time, exec .retain { u with now := m } = .next { u with now := m })

/-! ### LFO bank -/

/-- The waveforms of the eleven modes that have one (spec/44_lfo.md R221). -/
def Obligations.WaveformFormulas : Prop :=
  ∀ p : BitVec 32,
    (∃ v, wave .sawUp p = some v ∧ v.toNat = p.toNat / 2 ^ 20) ∧
    (∃ v, wave .sawDown p = some v ∧ v.toNat = 4095 - p.toNat / 2 ^ 20) ∧
    wave .sine p = some (Config.sine p) ∧
    wave .sine90 p = some (Config.sine (BitVec.ofNat 32 (p.toNat + 2 ^ 30))) ∧
    wave .sine180 p = some (Config.sine (BitVec.ofNat 32 (p.toNat + 2 ^ 31))) ∧
    wave .tri p = some (Config.tri p) ∧
    wave .tri90 p = some (Config.tri (BitVec.ofNat 32 (p.toNat + 2 ^ 30))) ∧
    wave .tri180 p = some (Config.tri (BitVec.ofNat 32 (p.toNat + 2 ^ 31))) ∧
    wave .square p = some (if p.toNat < 2 ^ 31 then 4095 else 0) ∧
    wave .square90 p = some (if (p.toNat + 2 ^ 30) % 2 ^ 32 < 2 ^ 31 then 4095 else 0) ∧
    wave .square180 p = some (if (p.toNat + 2 ^ 31) % 2 ^ 32 < 2 ^ 31 then 4095 else 0)

/-- `LfoSetOffset`: Random ignores the phase; any other mode emits its sample exactly when it differs from the last one
emitted; calling it twice with one phase emits once (spec/44_lfo.md R222). -/
def Obligations.SetOffsetSuppressesRepeats : Prop :=
  ∀ (k : Track) (p : BitVec 32) (s : State),
    (s.lfoMode.get k = .random → lfoSetOffset k p s = s) ∧
    (∀ v, wave (s.lfoMode.get k) p = some v → s.lastOut.get k = some v → lfoSetOffset k p s = s) ∧
    (∀ v, wave (s.lfoMode.get k) p = some v → s.lastOut.get k ≠ some v →
      lfoSetOffset k p s = { s with lastOut := s.lastOut.set k (some v), dac := s.dac ++ [(k, v)] }) ∧
    lfoSetOffset k p (lfoSetOffset k p s) = lfoSetOffset k p s

/-- Line 7: a track emits its waveform's sample at its phase exactly when the track is not Random and the sample differs
from the last one emitted, which it then becomes; the events are appended in the order of tracks 0 to 3, at most one for
each, and nothing else changes (spec/44_lfo.md R222, R229, spec/40_capture.md R127). -/
def Obligations.LfoLineEmitsInTrackOrder : Prop :=
  ∀ s : State, s.fault = none → s.pos = .lfo → s.stim = [] →
    ∃ (t : State) (ev : List (Track × Sample)), step s = .next t ∧
      t = { s with lastOut := t.lastOut, dac := s.dac ++ ev, pos := .gate .t0 } ∧
      (ev.map (·.1)).Sublist [.t0, .t1, .t2, .t3] ∧
      (∀ k v, (k, v) ∈ ev ↔ wave (s.lfoMode.get k) (s.phase.get k) = some v ∧ s.lastOut.get k ≠ some v) ∧
      (∀ k v, wave (s.lfoMode.get k) (s.phase.get k) = some v → t.lastOut.get k = some v) ∧
      (∀ k, s.lfoMode.get k = .random ↔ wave (s.lfoMode.get k) (s.phase.get k) = none) ∧
      (∀ k, s.lfoMode.get k = .random → t.lastOut.get k = s.lastOut.get k)

/-! ### Time-driven method -/

/-- Line 6: the mode reverts to Run once the idle timeout has elapsed, and each phase is
`wrap32(tph * dpt + interp)`; nothing else changes (spec/43_timebase.md R210, R212). -/
def Obligations.TimeStepResult : Prop :=
  ∀ s : State, s.fault = none → s.pos = .time → s.stim = [] →
    ∃ t, step s = .next t ∧ t = { s with mode := t.mode, phase := t.phase, pos := .lfo } ∧
      (s.mode ≠ .run → 5 * timeHz ≤ s.now.toNat - s.lastAction.toNat → t.mode = .run) ∧
      ((s.mode = .run ∨ s.now.toNat < s.lastAction.toNat + 5 * timeHz) → t.mode = s.mode) ∧
      (∀ k, s.predicted = 0 → (t.phase.get k).toNat = s.tph.get k * (s.dpt.get k).toNat % 2 ^ 32) ∧
      (∀ k, s.predicted ≠ 0 →
        (t.phase.get k).toNat =
          (s.tph.get k * (s.dpt.get k).toNat +
            min (s.now.toNat - s.lastTickTime.toNat) s.predicted.toNat * (s.dpt.get k).toNat / s.predicted.toNat)
          % 2 ^ 32)

/-- With the playhead below the length and `dpt` that of the length, the phase's sum is at most
`length * dpt ≤ U32_MAX`, so the wrap changes nothing; so the sum can wrap only while the playhead is at or past the
length (spec/43_timebase.md R213). -/
def Obligations.PhaseDoesNotWrapInRange : Prop :=
  ∀ (now last predicted : Time) (tph len : Nat) (dpt : BitVec 32), tph < len → dpt.toNat = 4294967295 / len →
    let interp := if 0 < predicted.toNat then
      min (now.toNat - last.toNat) predicted.toNat * dpt.toNat / predicted.toNat else 0
    tph * dpt.toNat + interp ≤ len * dpt.toNat ∧ len * dpt.toNat ≤ 4294967295 ∧
      (phaseOf now last predicted tph dpt).toNat = tph * dpt.toNat + interp

/-- Between Ticks, with the playhead in range, the phase does not decrease as `now` grows
(spec/43_timebase.md R214, for the range of R213). -/
def Obligations.PhaseAdvancesBetweenTicks : Prop :=
  ∀ (now later last predicted : Time) (tph len : Nat) (dpt : BitVec 32), tph < len → dpt.toNat = 4294967295 / len →
    now.toNat ≤ later.toNat →
      (phaseOf now last predicted tph dpt).toNat ≤ (phaseOf later last predicted tph dpt).toNat

/-! ### Input decoder -/

/-- The sixteen values of the quadrature table; eight are zero, four of each sign are not
(spec/41_decode.md R148; PRESUMED there, log entry 21). -/
def Obligations.QuadratureTable : Prop :=
  ((List.range 16).map fun n => qtab (BitVec.ofNat 4 n)) = [0, 1, -1, 0, -1, 0, 0, 1, 1, 0, 0, -1, 0, -1, 1, 0] ∧
  ((List.range 16).filter fun n => qtab (BitVec.ofNat 4 n) = 1) = [1, 7, 8, 14] ∧
  ((List.range 16).filter fun n => qtab (BitVec.ofNat 4 n) = -1) = [2, 4, 11, 13]

/-- `QStep` on any sample: the nibble becomes the previous pair and the sampled one; where the table has 0 for it, the
rolling register stays and the answer is 0; otherwise the nibble is appended to the register, and the answer is +1 where
that makes it 0x17, -1 where that makes it 0x2B, else 0. The pair is phase A, then phase B
(spec/41_decode.md R146, R147, spec/30_encoding.md R103). From rest at 11, a full detent emits one ±1 on its last sample,
one noisy edge and its return emit nothing, and half a detent one way and back the other way can reach a sentinel
(spec/41_decode.md R150). The table and the sentinels are PRESUMED in the spec (log entry 21). -/
def Obligations.DetentEmitsOnce : Prop :=
  (∀ (e : Encoder) (pair : BitVec 2),
    let r := qstep e pair
    r.1.nib.toNat = e.nib.toNat % 4 * 4 + pair.toNat ∧
    (qtab r.1.nib = 0 → r.1.roll = e.roll ∧ r.2 = 0) ∧
    (qtab r.1.nib ≠ 0 →
      r.1.roll.toNat = e.roll.toNat % 16 * 16 + r.1.nib.toNat ∧
      (r.1.roll = 0x17 → r.2 = 1) ∧ (r.1.roll = 0x2B → r.2 = -1) ∧
      (r.1.roll ≠ 0x17 → r.1.roll ≠ 0x2B → r.2 = 0))) ∧
  (∀ (pins : EncoderPins) (v : Snap),
    (samplePair pins v).toNat = 2 * (v.getLsbD pins.a.val).toNat + (v.getLsbD pins.b.val).toNat) ∧
  ∀ e : Encoder, e.nib.toNat % 4 = 3 →
    qstepResults e [0b10, 0b00, 0b01, 0b11] = [0, 0, 0, 1] ∧
    qstepResults e [0b01, 0b00, 0b10, 0b11] = [0, 0, 0, -1] ∧
    qstepResults e [0b10, 0b11] = [0, 0] ∧
    qstepResults e [0b01, 0b00, 0b01, 0b11] = [0, 0, 0, 1]

/-- Buttons: a change of the raw level restarts the hold at `now`; a level held long enough is taken over, and clicks
exactly when it rises; a level held too short changes nothing (spec/41_decode.md R151, R152). -/
def Obligations.DebounceAndClick : Prop :=
  (∀ (pin : ButtonPin) (now : Time) (v : Snap) (b : Button),
    sampleButton pin now pin.exp v b =
      (if v.getLsbD pin.bit.val = b.raw then b else { b with raw := v.getLsbD pin.bit.val, chg := now })) ∧
  (∀ (pin : ButtonPin) (now : Time) (e : Expander) (v : Snap) (b : Button), e ≠ pin.exp →
    sampleButton pin now e v b = b) ∧
  (∀ (hold now : Time) (b : Button), b.raw ≠ b.deb → hold.toNat ≤ now.toNat - b.chg.toNat → b.chg.toNat ≤ now.toNat →
    debounce hold now b = ({ b with deb := b.raw }, b.raw)) ∧
  (∀ (hold now : Time) (b : Button), (b.raw = b.deb ∨ now.toNat < b.chg.toNat + hold.toNat) →
    debounce hold now b = (b, false))

/-- The words a pass emits are the encodings of well-formed operations, strictly in the order of
spec/41_decode.md R156: so at most one of each, Reset before Tick (R143), and each decodes to its operation. Each is
among them exactly when its condition holds: Reset and Tick when that fact was drained, the Tick with its interval
(R141, R142); a delta when it is not zero, the seed's after acceleration and clamping (R153), the others' the net count
`r` of their encoder over the pass's snapshots (R144, R146, R154); a click when its button's debounced level rises after
those snapshots (R151, R152). -/
def Obligations.DecoderEmitsInOrder : Prop :=
  ∀ s : State, s.dSnap.e0.length ≤ 64 → s.dSnap.e1.length ≤ 64 →
    let r : Control → Int := fun c =>
      let pins := pinMap.enc.get c
      (qstepResults (s.enc.get c) ((s.dSnap.get pins.exp).map fun v => samplePair pins v)).sum
    let click : Control → Bool := fun c =>
      let pin := pinMap.btn.get c
      (debounce Config.debounceHold s.now
        ((s.dSnap.get pin.exp).foldl (fun b v => sampleButton pin s.now pin.exp v b) (s.btn.get c))).2
    ∃ is : List Instr,
      (decodeInputs s).2.map (fun w => decode (.opw w)) = is.map (fun i => .ok i) ∧
      (∀ i ∈ is, i.wellFormed = true ∧ emitRank i < 22) ∧
      is.Pairwise (fun i j => emitRank i < emitRank j) ∧
      (Instr.reset ∈ is ↔ s.dRst = true) ∧
      (∀ n, Instr.tick n ∈ is ↔ s.dClk = true ∧ n = min (s.dTs.toNat - s.lastClkTs.toNat) (2 ^ 32 - 1)) ∧
      (∀ d, Instr.seed d ∈ is ↔
        d ≠ 0 ∧ d = min (max (accel s.ast (r .seed) s.now).1 (-2 ^ 31)) (2 ^ 31 - 1)) ∧
      (Instr.seedClick ∈ is ↔ click .seed = true) ∧
      (∀ d, Instr.length d ∈ is ↔ d ≠ 0 ∧ d = r .length) ∧
      (Instr.lengthClick ∈ is ↔ click .length = true) ∧
      (∀ k d, Instr.offset k d ∈ is ↔ d ≠ 0 ∧ d = r (.offset k)) ∧
      (∀ k, Instr.offsetClick k ∈ is ↔ click (.offset k) = true) ∧
      (∀ k d, Instr.steps k d ∈ is ↔ d ≠ 0 ∧ d = r (.steps k)) ∧
      (∀ k, Instr.stepsClick k ∈ is ↔ click (.steps k) = true)

/-- A drained clock gives a Tick whose interval runs from the previous clock and saturates at 2^32 - 1, and becomes the
previous clock; with none drained the previous clock stays (spec/41_decode.md R142). -/
def Obligations.ClockEdgeInterval : Prop :=
  ∀ s : State,
    (s.dClk = true →
      (decodeInputs s).1.lastClkTs = s.dTs ∧
      opWord 0 0 (BitVec.ofNat 32 (min (s.dTs.toNat - s.lastClkTs.toNat) (2 ^ 32 - 1))) ∈ (decodeInputs s).2) ∧
    (s.dClk = false → (decodeInputs s).1.lastClkTs = s.lastClkTs)

/-- A pass emits at most 22 words, and from an empty operation queue lines 3 and 4 push them all without a fault
(spec/41_decode.md R157). -/
def Obligations.DecoderCannotOverflow : Prop :=
  ∀ s : State, (decodeInputs s).2.length ≤ 22 ∧
    (s.fault = none → s.pos = .decode → s.stim = [] → s.opq = [] →
      ∃ t, step s = .next t ∧ t.fault = none ∧ t.opq = (decodeInputs s).2 ∧ t.pos = .update)

/-- Lines 3 and 4 write the decoder's own state and the operation queue alone, and these values: each encoder has taken
`QStep` on the pairs sampled from its own expander's snapshots, oldest first (spec/41_decode.md R144, R146, R147); each
button has taken those snapshots and then its debounce (R151, R152); the acceleration state is what ACCEL leaves for the
seed's net count (R153); each cached snapshot is the newest one drained, or stays where none was (R144); nothing else
changes (R140). -/
def Obligations.DecodeWritesDecoderStateOnly : Prop :=
  ∀ s : State, s.fault = none → s.pos = .decode → s.stim = [] → s.opq = [] →
    let pairs : Control → List (BitVec 2) := fun c =>
      (s.dSnap.get (pinMap.enc.get c).exp).map fun v => samplePair (pinMap.enc.get c) v
    ∃ t, step s = .next t ∧
      t = { s with
            enc := t.enc, btn := t.btn, ast := t.ast, lastClkTs := t.lastClkTs, expCache := t.expCache
            opq := t.opq, pos := .update } ∧
      (∀ c, t.enc.get c = (pairs c).foldl (fun e pair => (qstep e pair).1) (s.enc.get c)) ∧
      (∀ c, let pin := pinMap.btn.get c
        t.btn.get c = (debounce Config.debounceHold s.now
          ((s.dSnap.get pin.exp).foldl (fun b v => sampleButton pin s.now pin.exp v b) (s.btn.get c))).1) ∧
      t.ast = (accel s.ast (qstepResults (s.enc.get .seed) (pairs .seed)).sum s.now).2 ∧
      (∀ e, (s.dSnap.get e = [] → t.expCache.get e = s.expCache.get e) ∧
        ∀ older v, s.dSnap.get e = older ++ [v] → t.expCache.get e = v) ∧
      (s.dSnap = ⟨[], []⟩ → t.enc = s.enc)

/-- A push to a full operation queue raises OPQ_OVERFLOW and leaves the queue unchanged (spec/20_memory.md R76). -/
def Obligations.FullQueuePushFaults : Prop :=
  ∀ (w : OpWord) (ws : List OpWord) (s : State), s.opq.length = 64 →
    pushAll (w :: ws) s = { s with fault := some .opqOverflow }

/-! ### The pass -/

/-- Lines 1 and 2: the exact answer of the dirty read is whether any captured fact is pending; with `dirty` true the
drain hands over every captured fact once and clears them; with `dirty` false nothing is drained and the facts stay; a
bus error faults after the drain (spec/40_capture.md R125, R126, R127, spec/60_exceptions.md R265). -/
def Obligations.PassBeginsWithDrain : Prop :=
  ∀ (s : State) (p : PassInput) (rest : List Stimulus), s.fault = none → s.pos = .idle → s.stim = .pass p :: rest →
    s.now.toNat ≤ p.now.toNat → s.clkTs.toNat ≤ p.now.toNat →
    (factsPending s = true ↔
      s.clkPending = true ∨ s.rstPending = true ∨ s.expq.e0 ≠ [] ∨ s.expq.e1 ≠ []) ∧
    ∃ t, step s = .next t ∧
      (p.busErr = true → t.fault = some .busError) ∧
      (p.busErr = false → t.fault = none ∧ t.pos = .decode) ∧
      (p.dirty.getD (factsPending s) = true →
        t.dRst = s.rstPending ∧ t.dClk = s.clkPending ∧ t.dTs = s.clkTs ∧ t.dSnap = s.expq ∧
        captureDomain t = (false, s.clkTs, false, ⟨[], []⟩, s.irqPend)) ∧
      (p.dirty.getD (factsPending s) = false →
        t.dRst = false ∧ t.dClk = false ∧ t.dSnap = ⟨[], []⟩ ∧ captureDomain t = captureDomain s) ∧
      t = { s with
            dRst := t.dRst, dClk := t.dClk, dTs := t.dTs, dSnap := t.dSnap
            clkPending := t.clkPending, rstPending := t.rstPending, expq := t.expq
            now := p.now, mute := p.mute, regen := false, acted := false, ticked := false, dac := []
            stim := rest, fault := t.fault, pos := t.pos }

/-- A pass whose `now` goes back, or lies before a timestamp it would drain, is no step: the environment must not
produce it (spec/40_capture.md R128, spec/70_reset_and_hazards.md R306; the refusal is the model's, log entry 4). -/
def Obligations.MisorderedTimeRefused : Prop :=
  ∀ (s : State) (p : PassInput) (rest : List Stimulus), s.fault = none → s.pos = .idle → s.stim = .pass p :: rest →
    (p.now.toNat < s.now.toNat ∨
      (p.dirty.getD (factsPending s) = true ∧ s.clkPending = true ∧ p.now.toNat < s.clkTs.toNat)) →
    step s = .refused .timeOrder

/-! ### Reset, boot and faults -/

/-- The state after power-on reset (spec/10_state.md R59). -/
def Obligations.ResetValues : Prop :=
  State.reset.clkPending = false ∧ State.reset.rstPending = false ∧ State.reset.clkTs = 0 ∧
  State.reset.expq = ⟨[], []⟩ ∧ (∀ l, State.reset.irqPend.get l = false) ∧ State.reset.opq = [] ∧
  State.reset.params = initParams ∧ paramsLegal initParams ∧
  (∀ k, State.reset.sync.get k = .sync) ∧ State.reset.mode = .run ∧
  State.reset.tickCount = 0 ∧ State.reset.gph = 0 ∧ (∀ k, State.reset.tph.get k = 0) ∧
  State.reset.resetArmed = true ∧ State.reset.pst = Config.pstate0 ∧ State.reset.predicted = 0 ∧
  State.reset.lastTickTime = 0 ∧ State.reset.lastAction = 0 ∧
  (∀ k, State.reset.patterns.get k = Config.genPattern (genInput initParams) k ∧
    State.reset.table.get k = Config.genTable (genInput initParams) k ∧
    (State.reset.dpt.get k).toNat = 4294967295 / initParams.length.get k ∧
    State.reset.phase.get k = 0 ∧ State.reset.lfoMode.get k = .random ∧ State.reset.lastOut.get k = none ∧
    State.reset.gateHigh.get k = false ∧ State.reset.randIdx.get k = 0 ∧ State.reset.level.get k = false ∧
    State.reset.clearAt.get k = none ∧ State.reset.lastGateIndex.get k = none) ∧
  State.reset.lastClkTs = 0 ∧ (∀ e, State.reset.expCache.get e = Config.bootSnapshot e) ∧
  (∀ c, State.reset.enc.get c = ⟨0, 0⟩ ∧ (State.reset.btn.get c).chg = 0 ∧
    (State.reset.btn.get c).raw = (Config.bootSnapshot (pinMap.btn.get c).exp).getLsbD (pinMap.btn.get c).bit.val ∧
    (State.reset.btn.get c).deb = (State.reset.btn.get c).raw) ∧
  State.reset.ast = Config.astate0 ∧ State.reset.fault = none

/-- Boot with a good configuration puts every element at its reset value, enables the interrupts and starts the agents;
with a bad one it raises BOOT_CONFIG and no agent steps (spec/70_reset_and_hazards.md R292). -/
def Obligations.BootStep : Prop :=
  ∀ (s : State) (ok : Bool) (rest : List Stimulus), s.fault = none → s.pos = .boot → s.stim = .boot ok :: rest →
    (ok = true → step s = .next
      { State.reset with irqEnabled := true, pos := .idle, stim := rest, freeIdx := s.freeIdx }) ∧
    (ok = false → ∃ t, step s = .next t ∧ t.fault = some .bootConfig ∧
      ∀ i : Instr, exec i t = .fault (.halted .bootConfig))

/-- Boot leaves `tph = 0`, `predicted = 0`, `reset_armed = true`, phase 0 and every gate low and unserved, and every step
that applies no Tick keeps it so; in each such state a phase computes to 0, and the first Tick, whenever it comes, gives
`gph = 0` and `tick_count = 1`, disarms the restart, and makes each track get a SET or a CLEAR at its turn
(spec/70_reset_and_hazards.md R294). A failed boot is left aside (R292). The clauses `ticked` and `gateCmd` of
`BeforeFirstTick` are of pass-local values; that boot leaves them false and RETAIN is no rule of the spec but the model's
reset value for them (DESIGN CHOICE, log entry 13). -/
def Obligations.FirstTickAfterBoot : Prop :=
  (∀ s : State, BeforeFirstTick (boot true s)) ∧
  (∀ s t : State, BeforeFirstTick s → step s = .next t → t.fault ≠ some .bootConfig → ¬ AppliesTick s →
    BeforeFirstTick t) ∧
  (∀ s : State, BeforeFirstTick s →
    ∀ (k : Track) (now : Time), phaseOf now s.lastTickTime s.predicted (s.tph.get k) (s.dpt.get k) = 0) ∧
  (∀ (n : Nat) (s : State), BeforeFirstTick s → s.fault = none →
    ∃ t, exec (.tick n) s = .next t ∧ t.gph = 0 ∧ t.tickCount = 1 ∧ t.resetArmed = false ∧
      ∀ (k : Track) (u : State), u.ticked = t.ticked → u.lastGateIndex.get k = t.lastGateIndex.get k →
        selectedCmd k u = 0b01 ∨ selectedCmd k u = 0b10)

/-- In the fault state no instruction runs and no agent steps: the only next states are power-on reset, and the
environment's inputs passing by with no effect (spec/60_exceptions.md R262, spec/10_state.md R54; that the model then
answers a fault is DEDUCED, log entry 15). -/
def Obligations.FaultStateIsFinal : Prop :=
  ∀ (s : State) (c : FaultCode), s.fault = some c →
    (∀ i : Instr, exec i s = .fault (.halted c)) ∧
    (step s = .fault (.halted c) ∨
      (∃ rest, s.stim = .powerOn :: rest ∧ step s = .next { State.reset with stim := rest, freeIdx := s.freeIdx }) ∨
      (∃ x rest, s.stim = x :: rest ∧ step s = .next { s with stim := rest }))

/-- From a state that meets the invariant no step raises OPQ_OVERFLOW or RESERVED_OP: these faults cannot be reached
when all words come from the decoder (spec/60_exceptions.md R261, spec/41_decode.md R157, spec/45_gate.md R247). -/
def Obligations.DecoderNeverCausesQueueFaults : Prop :=
  ∀ s t : State, Inv s → s.fault = none → step s = .next t →
    t.fault ≠ some .opqOverflow ∧ t.fault ≠ some .reservedOp

/-- Every step keeps the invariant (spec/70_reset_and_hazards.md R307, spec/42_sequencer.md R196, spec/10_state.md R37,
R39, R43, R49). -/
def Obligations.EveryStepKeepsInvariant : Prop :=
  ∀ s t : State, Inv s → step s = .next t → Inv t

/-- The state after reset meets the invariant; its clauses on the fields that are the model's own rest on log entries 11
and 13. -/
def Obligations.ResetMeetsInvariant : Prop := Inv State.reset

/-- Between passes, a state that meets the invariant and has no fault is `Legal`
(spec/70_reset_and_hazards.md R307). -/
def Obligations.StatesBetweenPassesAreLegal : Prop :=
  ∀ s : State, Inv s → s.fault = none → s.pos = .idle → Legal s

/-- The outputs while there is no fault: each gate line follows its level, driven to the active level when high; the DAC
events out are all those of the last pass, and inside a pass none; `fault_out` is whether the fault state is set
(spec/10_state.md R31, spec/45_gate.md R248). A pass's DAC events come out together: a step inside a pass leaves none out,
unless it is the one that runs track 3's gate command, which is no capture and ends the pass
(spec/20_memory.md R82; that they come out at that step is DESIGN CHOICE, log entry 32). -/
def Obligations.OutputsFollowState : Prop :=
  (∀ (s : State) (k : Track),
    (s.fault = none → gateOut s k = s.level.get k ∧
      (s.pos = .idle → dacOut s = s.dac) ∧
      (s.pos ≠ .idle → s.pos ≠ .boot → dacOut s = []) ∧
      (s.level.get k = true → gateLineHigh s k = Config.gateActiveHigh) ∧
      (s.level.get k = false → gateLineHigh s k = !Config.gateActiveHigh)) ∧
    (faultOut s = true ↔ ∃ c, s.fault = some c) ∧
    displayView s = (s.mode, s.params)) ∧
  (∀ s t : State, s.fault = none → s.pos ≠ .idle → s.pos ≠ .boot → step s = .next t → t.fault = none →
    dacOut t = [] ∨
      (s.gateTrk = .t3 ∧ t.pos = .idle ∧ dacOut t = t.dac ∧ ∃ s1, fetch s = some (.gcmd s.gateCmd, s1))) ∧
  (∀ (i : Instr) (s t : State), isCapture i = true → exec i s = .next t → dacOut t = dacOut s)
end

