-- ==== Sys2Proof/Laws/Families.lean ====
section
/-! SUPPORT. Reading a family of like things after writing one of them. -/

namespace Sys2Proof

variable {α β : Type}

@[simp] theorem PerTrack.get_set (q : PerTrack α) (t u : Track) (x : α) :
    (q.set t x).get u = if u = t then x else q.get u := by
  cases t <;> cases u <;> rfl

@[simp] theorem PerTrack.get_ofFn (f : Track → α) (t : Track) : (PerTrack.ofFn f).get t = f t := by
  cases t <;> rfl

@[simp] theorem PerTrack.get_const (x : α) (t : Track) : (PerTrack.const x).get t = x := by
  cases t <;> rfl

theorem PerTrack.ext_get {p q : PerTrack α} (h : ∀ t, p.get t = q.get t) : p = q := by
  cases p; cases q
  exact PerTrack.mk.injEq .. ▸ ⟨h .t0, h .t1, h .t2, h .t3⟩

theorem PerTrack.set_comm (q : PerTrack α) {t u : Track} (h : t ≠ u) (x y : α) :
    (q.set t x).set u y = (q.set u y).set t x := by
  cases t <;> cases u <;> first | rfl | exact absurd rfl h

@[simp] theorem PerTrack.set_set (q : PerTrack α) (t : Track) (x y : α) :
    (q.set t x).set t y = q.set t y := by
  cases t <;> rfl

@[simp] theorem PerTrack.set_get (q : PerTrack α) (t : Track) : q.set t (q.get t) = q := by
  cases t <;> rfl

@[simp] theorem PerExp.get_set (q : PerExp α) (e f : Expander) (x : α) :
    (q.set e x).get f = if f = e then x else q.get f := by
  cases e <;> cases f <;> rfl

@[simp] theorem PerLine.get_set (q : PerLine α) (l m : Line) (x : α) :
    (q.set l x).get m = if m = l then x else q.get m := by
  cases l <;> cases m <;> rfl

theorem PerLine.set_comm (q : PerLine α) {l m : Line} (h : l ≠ m) (x y : α) :
    (q.set l x).set m y = (q.set m y).set l x := by
  cases l <;> cases m <;> first | rfl | exact absurd rfl h

@[simp] theorem PerControl.get_ofFn (f : Control → α) (c : Control) : (PerControl.ofFn f).get c = f c := by
  cases c <;> simp [PerControl.get, PerControl.ofFn]

@[simp] theorem PerControl.get_const (x : α) (c : Control) : (PerControl.const x).get c = x := by
  cases c <;> simp [PerControl.get, PerControl.const]

@[simp] theorem Track.ofBits_bits (t : Track) : Track.ofBits t.bits = t := by cases t <;> rfl

@[simp] theorem Track.bits_ofBits (b : BitVec 2) : (Track.ofBits b).bits = b := by
  revert b; decide

theorem Track.mem_all (t : Track) : t ∈ Track.all := by cases t <;> decide

end Sys2Proof
end

