-- ==== Sys2Proof/Laws/Decode.lean ====
section
/-! SUPPORT. The fields of an encoded operation word, and which words decode. -/

namespace Sys2Proof

@[simp] theorem opcField_opWord (o : BitVec 4) (t : BitVec 2) (p : BitVec 32) : opcField (opWord o t p) = o := by
  apply BitVec.eq_of_getLsbD_eq
  intro i hi
  have h1 : i < 32 := by omega
  have h2 : i < 64 := by omega
  simp [opcField, opWord, h1, h2, hi]

@[simp] theorem trkField_opWord (o : BitVec 4) (t : BitVec 2) (p : BitVec 32) : trkField (opWord o t p) = t := by
  apply BitVec.eq_of_getLsbD_eq
  intro i hi
  have h1 : 4 + i < 32 := by omega
  have h2 : 4 + i < 64 := by omega
  simp [trkField, opWord, h1, h2, hi]

@[simp] theorem rsvField_opWord (o : BitVec 4) (t : BitVec 2) (p : BitVec 32) : rsvField (opWord o t p) = 0 := by
  apply BitVec.eq_of_getLsbD_eq
  intro i hi
  have h1 : 6 + i < 32 := by omega
  have h3 : o.getLsbD (6 + i) = false := BitVec.getLsbD_of_ge _ _ (by omega)
  have h4 : t.getLsbD (6 + i - 4) = false := BitVec.getLsbD_of_ge _ _ (by omega)
  simp [rsvField, opWord, h1, h3, h4]

@[simp] theorem payField_opWord (o : BitVec 4) (t : BitVec 2) (p : BitVec 32) : payField (opWord o t p) = p := by
  apply BitVec.eq_of_getLsbD_eq
  intro i hi
  have h3 : o.getLsbD (32 + i) = false := BitVec.getLsbD_of_ge _ _ (by omega)
  have h4 : t.getLsbD (32 + i - 4) = false := BitVec.getLsbD_of_ge _ _ (by omega)
  have h5 : 32 + i < 64 := by omega
  simp [payField, opWord, h3, h4, h5, hi]

/-- A word is its four fields. -/
theorem opWord_fields (w : OpWord) (h : rsvField w = 0) : opWord (opcField w) (trkField w) (payField w) = w := by
  apply BitVec.eq_of_getLsbD_eq
  intro i hi
  have hr : ∀ j, j < 26 → w.getLsbD (6 + j) = false := by
    intro j hj
    have := congrArg (fun x => x.getLsbD j) h
    simpa [rsvField, hj] using this
  by_cases h1 : i < 4
  · have : i < 32 := by omega
    simp [opWord, opcField, h1, this, hi]
  · by_cases h2 : i < 6
    · have a1 : i < 32 := by omega
      have a2 : i - 4 < 2 := by omega
      have a3 : 4 + (i - 4) = i := by omega
      simp [opWord, opcField, trkField, h1, a1, a2, a3, hi]
    · by_cases h3 : i < 32
      · have hw := hr (i - 6) (by omega)
        rw [show 6 + (i - 6) = i by omega] at hw
        have a2 : ¬ (i - 4 < 2) := by omega
        simp [opWord, opcField, trkField, h1, a2, h3, hw]
      · have a1 : i - 32 < 32 := by omega
        have a3 : 32 + (i - 32) = i := by omega
        have a2 : ¬ (i - 4 < 2) := by omega
        simp [opWord, opcField, trkField, payField, h1, a2, h3, a1, a3, hi]

theorem wordFlaw_eq_none (w : OpWord) : wordFlaw w = none ↔ wordWellFormed w = true := by
  have e6 : 6 ≤ (opcField w).toNat ↔ ¬ (opcField w).toNat < 6 := by omega
  have e9 : (opcField w).toNat ≤ 9 ↔ ¬ 9 < (opcField w).toNat := by omega
  simp only [wordFlaw, wordWellFormed, Bool.and_eq_true, Bool.or_eq_true, decide_eq_true_eq, Bool.not_eq_true', e6, e9]
  generalize [1, 3, 5, 7, 9].contains (opcField w).toNat = c
  by_cases h1 : 9 < (opcField w).toNat <;> by_cases h2 : rsvField w = 0#26 <;> by_cases h3 : trkField w = 0#2 <;>
    by_cases h4 : payField w = 0#32 <;> by_cases h5 : (opcField w).toNat < 6 <;> cases c <;> simp [h1, h2, h3, h4, h5]

/-- A well-formed word decodes to the operation its opcode selects. -/
theorem decodeOpw_of_wellFormed {w : OpWord} (h : wordWellFormed w = true) : decodeOpw w = operationOf w := by
  rw [decodeOpw, (wordFlaw_eq_none w).mpr h]

/-- A word that is not well formed does not decode. -/
theorem decodeOpw_of_not_wellFormed {w : OpWord} (h : wordWellFormed w = false) : ∃ e, decodeOpw w = .error e := by
  cases hf : wordFlaw w with
  | none => simp [(wordFlaw_eq_none w).mp hf] at h
  | some e => exact ⟨e, by simp [decodeOpw, hf]⟩

/-- A well-formed word decodes. -/
theorem decodeOpw_ok {w : OpWord} (h : wordWellFormed w = true) : ∃ i, decodeOpw w = .ok i := by
  rw [decodeOpw_of_wellFormed h]
  have h9 : (opcField w).toNat ≤ 9 := by
    simp [wordWellFormed] at h
    omega
  unfold operationOf
  interval_cases h' : (opcField w).toNat <;> exact ⟨_, rfl⟩

/-- The words the encoder writes are well formed. -/
theorem wordWellFormed_opWordOf (i : Instr) (w : OpWord) (h : encode i = .opw w) : wordWellFormed w = true := by
  cases i <;> simp only [encode, reduceCtorEq, Raw.opw.injEq] at h <;> subst h <;>
    simp [wordWellFormed]

end Sys2Proof
end

