-- ==== Sys2Proof/Laws/Gate.lean ====
section
/-! SUPPORT. Once for each shared operation of the LFO bank and the gate scheduler, everything it can do. -/

namespace Sys2Proof.Machine

/-- The gate going inactive writes the flag alone (spec/44_lfo.md R228). -/
@[simp] theorem lfoGate_false (t : Track) (s : State) :
    lfoGate t false s = { s with gateHigh := s.gateHigh.set t false } := by
  simp [lfoGate]

/-- The gate going active: a sample exactly on a rising edge in Random mode (spec/44_lfo.md R228). -/
theorem lfoGate_true (t : Track) (s : State) :
    lfoGate t true s =
      if s.gateHigh.get t = false ∧ s.lfoMode.get t = .random then
        { s with
          gateHigh := s.gateHigh.set t true
          lastOut := s.lastOut.set t (some (sampledValue s t))
          dac := s.dac ++ [(t, sampledValue s t)]
          randIdx := s.randIdx.set t (s.randIdx.get t + 1) }
      else { s with gateHigh := s.gateHigh.set t true } := by
  unfold lfoGate
  by_cases h : s.gateHigh.get t = false ∧ s.lfoMode.get t = .random
  · simp only [h, and_self, if_true]
    rfl
  · simp only [true_and, h, if_false]

/-- Driving a gate inactive writes its level, its clear time and its flag (spec/45_gate.md R245). -/
theorem gateOff_eq (t : Track) (s : State) :
    gateOff t s =
      { s with
        level := s.level.set t false, clearAt := s.clearAt.set t none, gateHigh := s.gateHigh.set t false } := by
  simp [gateOff, setGateLine]

/-- Driving a gate active writes its level, its flag, some clear time, and what a Random sample and an open clear time
write (spec/45_gate.md R244). -/
theorem gateOn_frame (t : Track) (s : State) :
    (∃ c, (gateOn t s).clearAt = s.clearAt.set t (some c)) ∧
      gateOn t s =
        { s with
          level := s.level.set t true, clearAt := (gateOn t s).clearAt, gateHigh := s.gateHigh.set t true
          lastOut := (gateOn t s).lastOut, dac := (gateOn t s).dac, randIdx := (gateOn t s).randIdx
          freeIdx := (gateOn t s).freeIdx } := by
  simp only [gateOn, lfoGate_true, setGateLine]
  split <;> exact ⟨⟨_, rfl⟩, rfl⟩

/-- `LfoSetOffset` does nothing, or emits one sample of its track (spec/44_lfo.md R222). -/
theorem lfoSetOffset_cases (t : Track) (p : BitVec 32) (s : State) :
    lfoSetOffset t p s = s ∨
      ∃ v, wave (s.lfoMode.get t) p = some v ∧ s.lastOut.get t ≠ some v ∧ lfoSetOffset t p s = emitSample t v s := by
  unfold lfoSetOffset
  split
  · exact .inl rfl
  · rename_i v hv
    by_cases h : s.lastOut.get t = some v
    · exact .inl (by simp [h])
    · exact .inr ⟨v, hv, h, by simp [h]⟩

/-- `LfoSetOffset` writes the last output and the event list alone. -/
theorem lfoSetOffset_frame (t : Track) (p : BitVec 32) (s : State) :
    lfoSetOffset t p s =
      { s with lastOut := (lfoSetOffset t p s).lastOut, dac := (lfoSetOffset t p s).dac } := by
  rcases lfoSetOffset_cases t p s with h | ⟨v, _, _, h⟩
  · rw [h]
  · rw [h]; rfl

theorem wave_eq_none (m : LfoMode) (p : BitVec 32) : wave m p = none ↔ m = .random := by
  cases m <;> simp [wave]

end Sys2Proof.Machine
end

