-- ==== Sys2Proof/Laws/InputDecoder.lean ====
section
/-! SUPPORT. What a pass's snapshots do to one encoder and to one button (spec/41_decode.md R144, R146, R151, R152): only
those of its own expander count. -/

namespace Sys2Proof.Machine

/-- The snapshots of one expander, picked from the processing order, are those drained from it, oldest first. -/
theorem snapshotsInOrder_of (e : Expander) (d : PerExp (List Snap)) :
    ((snapshotsInOrder d).filter fun x => e = x.1).map (·.2) = d.get e := by
  cases e <;> simp [snapshotsInOrder, List.filter_append, List.filter_map, Function.comp_def, PerExp.get]

/-- A fold that passes over the snapshots of the other expander. -/
theorem foldl_own_snapshots {α : Type} (e : Expander) (f : Expander → Snap → α → α)
    (hf : ∀ e' v a, e ≠ e' → f e' v a = a) (l : List (Expander × Snap)) (a : α) :
    l.foldl (fun a x => f x.1 x.2 a) a =
      ((l.filter fun x => e = x.1).map (·.2)).foldl (fun a v => f e v a) a := by
  induction l generalizing a with
  | nil => rfl
  | cons x l ih =>
    rw [List.foldl_cons, ih]
    by_cases h : e = x.1
    · simp [h]
    · simp [h, hf x.1 x.2 a h]

/-- An encoder over snapshots of its own expander: the raw count is the sum of what `QStep` answers. -/
theorem sampleEncoder_foldl (pins : EncoderPins) (l : List Snap) (st : Encoder × Int) :
    (l.foldl (fun st v => sampleEncoder pins pins.exp v st) st).2 =
      st.2 + (qstepResults st.1 (l.map fun v => samplePair pins v)).sum := by
  induction l generalizing st with
  | nil => simp [qstepResults]
  | cons v l ih =>
    rw [List.foldl_cons, ih]
    simp [sampleEncoder, qstepResults, Int.add_assoc]

/-- An encoder over snapshots of its own expander: it takes `QStep` on each sampled pair. -/
theorem sampleEncoder_foldl_fst (pins : EncoderPins) (l : List Snap) (st : Encoder × Int) :
    (l.foldl (fun st v => sampleEncoder pins pins.exp v st) st).1 =
      (l.map fun v => samplePair pins v).foldl (fun e pair => (qstep e pair).1) st.1 := by
  induction l generalizing st with
  | nil => rfl
  | cons v l ih =>
    rw [List.foldl_cons, ih]
    simp [sampleEncoder]

/-- The state an encoder has after a pass's snapshots (R146, R147). -/
theorem runEncoder_fst (pins : EncoderPins) (d : PerExp (List Snap)) (e : Encoder) :
    (runEncoder pins (snapshotsInOrder d) e).1 =
      ((d.get pins.exp).map fun v => samplePair pins v).foldl (fun e pair => (qstep e pair).1) e := by
  rw [runEncoder, foldl_own_snapshots pins.exp (sampleEncoder pins) (fun e' v st h => by simp [sampleEncoder, h]),
    snapshotsInOrder_of, sampleEncoder_foldl_fst]

/-- The raw count of a pass (R146). -/
theorem runEncoder_snd (pins : EncoderPins) (d : PerExp (List Snap)) (e : Encoder) :
    (runEncoder pins (snapshotsInOrder d) e).2 =
      (qstepResults e ((d.get pins.exp).map fun v => samplePair pins v)).sum := by
  rw [runEncoder, foldl_own_snapshots pins.exp (sampleEncoder pins) (fun e' v st h => by simp [sampleEncoder, h]),
    snapshotsInOrder_of, sampleEncoder_foldl]
  simp

/-- A button over a pass's snapshots (R151, R152). -/
theorem runButton_eq (pin : ButtonPin) (hold now : Time) (d : PerExp (List Snap)) (b : Button) :
    runButton pin hold now (snapshotsInOrder d) b =
      debounce hold now ((d.get pin.exp).foldl (fun b v => sampleButton pin now pin.exp v b) b) := by
  rw [runButton, foldl_own_snapshots pin.exp (sampleButton pin now) (fun e' v b h => by simp [sampleButton, h]),
    snapshotsInOrder_of]

/-! ### The fields of a pass's decode -/

theorem decodedWith_enc (m : PinMap) (hold : Time) (s : State) (c : Control) :
    (decodedWith m hold s).enc.get c = (runEncoder (m.enc.get c) (snapshotsInOrder s.dSnap) (s.enc.get c)).1 := by
  cases c <;> simp [decodedWith, PerControl.get, PerControl.ofFn]

theorem decodedWith_raw (m : PinMap) (hold : Time) (s : State) (c : Control) :
    (decodedWith m hold s).raw.get c = (runEncoder (m.enc.get c) (snapshotsInOrder s.dSnap) (s.enc.get c)).2 := by
  cases c <;> simp [decodedWith, PerControl.get, PerControl.ofFn]

theorem decodedWith_btn (m : PinMap) (hold : Time) (s : State) (c : Control) :
    (decodedWith m hold s).btn.get c =
      (runButton (m.btn.get c) hold s.now (snapshotsInOrder s.dSnap) (s.btn.get c)).1 := by
  cases c <;> simp [decodedWith, PerControl.get, PerControl.ofFn]

theorem decodedWith_click (m : PinMap) (hold : Time) (s : State) (c : Control) :
    (decodedWith m hold s).click.get c =
      (runButton (m.btn.get c) hold s.now (snapshotsInOrder s.dSnap) (s.btn.get c)).2 := by
  cases c <;> simp [decodedWith, PerControl.get, PerControl.ofFn]

theorem decodedWith_ast (m : PinMap) (hold : Time) (s : State) :
    (decodedWith m hold s).ast = (accel s.ast ((decodedWith m hold s).raw.get .seed) s.now).2 := rfl

end Sys2Proof.Machine
end

