-- ==== Sys2Proof/Laws/Ops.lean ====
section
/-! SUPPORT. Once for each shared operation, everything it can do. -/

namespace Sys2Proof.Machine

theorem guarded_running {s : State} (h : s.fault = none) (out : Out) : guarded s out = out := by
  simp [guarded, h]

theorem guarded_faulted {s : State} {c : FaultCode} (h : s.fault = some c) (out : Out) :
    guarded s out = .fault (.halted c) := by
  simp [guarded, h]

/-- A guarded outcome is a next state only in a machine without fault. -/
theorem guarded_eq_next {s t : State} {out : Out} :
    guarded s out = .next t ↔ s.fault = none ∧ out = .next t := by
  unfold guarded
  split <;> simp_all

theorem whenPending_eq_next {l : Line} {s t : State} {out : Out} :
    whenPending l s out = .next t ↔ s.irqPend.get l = true ∧ out = .next t := by
  unfold whenPending
  split <;> simp_all

theorem whenPending_of_pending {l : Line} {s : State} (h : s.irqPend.get l = true) (out : Out) :
    whenPending l s out = out := by
  simp [whenPending, h]

theorem whenPending_of_clear {l : Line} {s : State} (h : s.irqPend.get l = false) (out : Out) :
    whenPending l s out = .refused (.captureNotPending l) := by
  simp [whenPending, h]

/-- A queue within capacity stays within capacity. -/
theorem expPush_length_le (q : List Snap) (v : Snap) (h : q.length ≤ 64) : (expPush q v).length ≤ 64 := by
  unfold expPush expqCap
  split
  · simp_all
  · simp; omega

/-- A queue within capacity holds, after a push, the newest 64 of its entries and the new one. -/
theorem expPush_eq_newest (q : List Snap) (v : Snap) (h : q.length ≤ 64) :
    expPush q v = (q ++ [v]).drop (q.length + 1 - 64) := by
  unfold expPush expqCap
  split
  · rename_i h64
    rw [h64, List.drop_append_of_le_length (by omega)]
  · rw [Nat.sub_eq_zero_of_le (by omega), List.drop_zero]

/-- Words that fit are all pushed, in order, and nothing else changes. -/
theorem pushAll_of_fits (ws : List OpWord) (s : State) (h : s.opq.length + ws.length ≤ 64) :
    pushAll ws s = { s with opq := s.opq ++ ws } := by
  induction ws generalizing s with
  | nil => simp [pushAll]
  | cons w ws ih =>
    have hlt : ¬ opqCap ≤ s.opq.length := by simp [opqCap] at *; omega
    rw [pushAll, if_neg hlt, ih]
    · simp
    · simp at *; omega

end Sys2Proof.Machine
end

