-- ==== Sys2Proof/Laws/Parametric.lean ====
section
/-! SUPPORT. The parameter operations keep Params in its ranges (spec/42_sequencer.md R182, R183, R193, R196). -/

namespace Sys2Proof.Machine

/-- `paramsLegal`, track by track. -/
theorem paramsLegal_iff (p : Params) :
    paramsLegal p ↔
      p.seed ≤ 9999 ∧ 2 ≤ p.patternLength ∧ p.patternLength ≤ 64 ∧
      ∀ t, 2 ≤ p.length.get t ∧ p.length.get t ≤ 64 ∧ p.steps.get t ≤ p.length.get t ∧
        p.offset.get t < p.length.get t := by
  constructor
  · rintro ⟨h1, h2, h3, a, b, c, d⟩
    exact ⟨h1, h2, h3, fun t => by cases t <;> assumption⟩
  · rintro ⟨h1, h2, h3, h⟩
    exact ⟨h1, h2, h3, h .t0, h .t1, h .t2, h .t3⟩

theorem initParams_legal : paramsLegal initParams := by
  unfold initParams
  split
  · assumption
  · decide

/-- One unit step keeps `2 ≤ length ≤ 64` and `steps ≤ length`, from any pair. -/
theorem stepOne_legal (up : Bool) (p : Nat × Nat) :
    2 ≤ (stepOne up p).2 ∧ (stepOne up p).2 ≤ 64 ∧ (stepOne up p).1 ≤ (stepOne up p).2 := by
  simp only [stepOne, clampInt, tlenMin, tlenMax, stepsMax]
  omega

theorem stepMany_legal (up : Bool) (k : Nat) (p : Nat × Nat) (h : 2 ≤ p.2 ∧ p.2 ≤ 64 ∧ p.1 ≤ p.2) :
    2 ≤ (stepMany up k p).2 ∧ (stepMany up k p).2 ≤ 64 ∧ (stepMany up k p).1 ≤ (stepMany up k p).2 := by
  induction k generalizing p with
  | zero => exact h
  | succ k ih => exact ih _ (stepOne_legal up p)

theorem addMod_lt (x : Nat) (d : Int) (m : Nat) (h : 0 < m) : addMod x d m < m := by
  unfold addMod
  have h1 := Int.emod_nonneg ((x : Int) + d) (b := (m : Int)) (by omega)
  have h2 := Int.emod_lt_of_pos ((x : Int) + d) (b := (m : Int)) (by omega)
  omega

theorem drawLength_mem (n : Nat) : drawLength n ∈ fateLengthSet := by
  unfold drawLength
  have : n % fateLengthSet.length < fateLengthSet.length := Nat.mod_lt _ (by simp [fateLengthSet])
  rw [List.getD_eq_getElem _ _ this]
  exact List.getElem_mem this

theorem fateLengthSet_bounds {n : Nat} (h : n ∈ fateLengthSet) : 2 ≤ n ∧ n ≤ 64 := by
  simp [fateLengthSet, fateLengths] at h
  omega

theorem drawLength_bounds (n : Nat) : 2 ≤ drawLength n ∧ drawLength n ≤ 64 :=
  fateLengthSet_bounds (drawLength_mem n)

theorem fateParams_legal (k : Nat) (p : Params) (h : paramsLegal p) : paramsLegal (fateParams k p) := by
  rw [paramsLegal_iff] at h ⊢
  refine ⟨by simp [fateParams]; omega, h.2.1, h.2.2.1, fun t => ?_⟩
  have hb := drawLength_bounds (Config.fateLength k t)
  simp only [fateParams, PerTrack.get_ofFn]
  refine ⟨hb.1, hb.2, ?_, Nat.mod_lt _ (by omega)⟩
  have := Nat.mod_lt (Config.fateSteps k t) (y := drawLength (Config.fateLength k t) + 1) (by omega)
  omega

theorem steppedParams_legal (t : Track) (d : Int) (p : Params) (h : paramsLegal p) :
    paramsLegal (steppedParams t d p) := by
  rw [paramsLegal_iff] at h ⊢
  obtain ⟨h1, h2, h3, h4⟩ := h
  refine ⟨h1, h2, h3, fun u => ?_⟩
  have hs := stepMany_legal (decide (0 < d)) d.natAbs (p.steps.get t, p.length.get t)
    ⟨(h4 t).1, (h4 t).2.1, (h4 t).2.2.1⟩
  simp only [steppedParams, PerTrack.get_set]
  split
  · exact ⟨hs.1, hs.2.1, hs.2.2, Nat.mod_lt _ (by omega)⟩
  · exact h4 u

end Sys2Proof.Machine
end

