-- ==== Sys2Proof/Laws/PerInstr.lean ====
section
/-! SUPPORT. A statement about every instruction as syntax, one lemma for each constructor. -/

namespace Sys2Proof.Laws.QueueWordForm

/-- The queue word of an instruction, where it has one, meets the four conditions of spec/30_encoding.md R94. -/
def Statement (i : Instr) : Prop := ∀ w, encode i = .opw w → wordWellFormed w = true

theorem tick (n : Nat) : Statement (.tick n) := wordWellFormed_opWordOf _

theorem reset : Statement .reset := wordWellFormed_opWordOf _

theorem seed (d : Int) : Statement (.seed d) := wordWellFormed_opWordOf _

theorem seedClick : Statement .seedClick := wordWellFormed_opWordOf _

theorem length (d : Int) : Statement (.length d) := wordWellFormed_opWordOf _

theorem lengthClick : Statement .lengthClick := wordWellFormed_opWordOf _

theorem offset (t : Track) (d : Int) : Statement (.offset t d) := wordWellFormed_opWordOf _

theorem offsetClick (t : Track) : Statement (.offsetClick t) := wordWellFormed_opWordOf _

theorem steps (t : Track) (d : Int) : Statement (.steps t d) := wordWellFormed_opWordOf _

theorem stepsClick (t : Track) : Statement (.stepsClick t) := wordWellFormed_opWordOf _

theorem retain : Statement .retain := wordWellFormed_opWordOf _

theorem set : Statement .set := wordWellFormed_opWordOf _

theorem clear : Statement .clear := wordWellFormed_opWordOf _

theorem gcmdReserved : Statement .gcmdReserved := wordWellFormed_opWordOf _

theorem clk (ts : Time) : Statement (.clk ts) := wordWellFormed_opWordOf _

theorem rst : Statement .rst := wordWellFormed_opWordOf _

theorem rstclk (ts : Time) : Statement (.rstclk ts) := wordWellFormed_opWordOf _

theorem exp0 (v : Snap) : Statement (.exp0 v) := wordWellFormed_opWordOf _

theorem exp1 (v : Snap) : Statement (.exp1 v) := wordWellFormed_opWordOf _

end Sys2Proof.Laws.QueueWordForm
end

