-- ==== Sys2Proof/Laws/State.lean ====
section
/-! SUPPORT. The fields of the state after reset and after the updates that choose between two. The named updates that
write fixed fields (`raise`, `emitDac`, `setGateLine`, `captureClk`, `captureRst`, `captureExp`, `accept`, `markRegen`,
`editDone`, `regenerate`, `passInputs`, `decoderWrites`, `gateSelect`, `timeStep`, `powerOn`) carry one such lemma for
each field, made by `simps` where they are defined. -/

namespace Sys2Proof.Machine

@[simp] theorem reset_fault : State.reset.fault = none := rfl
@[simp] theorem reset_pos : State.reset.pos = .boot := rfl
@[simp] theorem reset_opq : State.reset.opq = [] := rfl
@[simp] theorem reset_expq : State.reset.expq = ⟨[], []⟩ := rfl
@[simp] theorem reset_dSnap : State.reset.dSnap = ⟨[], []⟩ := rfl
@[simp] theorem reset_params : State.reset.params = initParams := rfl
@[simp] theorem reset_mode : State.reset.mode = .run := rfl
@[simp] theorem reset_resetArmed : State.reset.resetArmed = true := rfl
@[simp] theorem reset_regen : State.reset.regen = false := rfl
@[simp] theorem reset_dpt : State.reset.dpt = dptOf initParams := rfl
@[simp] theorem reset_irqPend : State.reset.irqPend = ⟨false, false, false, false⟩ := rfl
@[simp] theorem reset_irqEnabled : State.reset.irqEnabled = false := rfl
@[simp] theorem reset_level : State.reset.level = PerTrack.const false := rfl
@[simp] theorem reset_clearAt : State.reset.clearAt = PerTrack.const none := rfl
@[simp] theorem reset_gateHigh : State.reset.gateHigh = PerTrack.const false := rfl
@[simp] theorem reset_tph : State.reset.tph = PerTrack.const 0 := rfl
@[simp] theorem reset_gateCmd : State.reset.gateCmd = 0 := rfl
@[simp] theorem reset_duty : State.reset.duty = PerTrack.ofFn fun t => (Config.duty t).val := rfl

@[simp] theorem toggleMode_mode (a p : Mode) (s : State) :
    (toggleMode a p s).mode = if s.mode = a then p else a := rfl
@[simp] theorem toggleMode_acted (a p : Mode) (s : State) : (toggleMode a p s).acted = true := rfl
@[simp] theorem toggleMode_params (a p : Mode) (s : State) : (toggleMode a p s).params = s.params := rfl

@[simp] theorem drain_false (s : State) :
    drain false s = { s with dRst := false, dClk := false, dTs := s.clkTs, dSnap := ⟨[], []⟩ } := rfl
@[simp] theorem drain_true (s : State) :
    drain true s =
      { s with
        dRst := s.rstPending, dClk := s.clkPending, dTs := s.clkTs, dSnap := s.expq
        rstPending := false, clkPending := false, expq := ⟨[], []⟩ } := rfl

@[simp] theorem emitSample_eq (t : Track) (v : Sample) (s : State) :
    emitSample t v s = { s with lastOut := s.lastOut.set t (some v), dac := s.dac ++ [(t, v)] } := rfl

end Sys2Proof.Machine
end

