-- ==== Sys2Proof/Laws/Runs.lean ====
section
/-! SUPPORT. How a test run starts, and that it has one end state (spec/70_reset_and_hazards.md R305). -/

namespace Sys2Proof.Machine

theorem bootResult_eq : bootResult = { State.reset with irqEnabled := true, pos := .idle } := rfl

/-- The boot result meets the launch premise too (R307). -/
theorem bootResult_legal : Legal bootResult := by
  refine ⟨rfl, initParams_legal, rfl, ?_, ?_, ?_, ?_⟩
  · intro e
    cases e <;> exact Nat.zero_le _
  all_goals
    intro t
    cases t <;> simp [bootResult_eq, dptOf, PerTrack.ofFn, PerTrack.get, PerTrack.const]

/-- The first step from power-on reset with a program is boot, which leaves the program to run from the boot result. -/
theorem step_programFromReset (p : List EventLine) :
    step (programFromReset p) = .next (loadProgram p bootResult) := rfl

theorem runFor_ended {s : State} (h : runEnded s = true) (n : Nat) : runFor n s = .next s := by
  cases n <;> simp [runFor, h]

/-- Steps left over after the end of a run do nothing. -/
theorem runFor_add {s t : State} {n : Nat} (h : runFor n s = .next t) (ht : runEnded t = true) (k : Nat) :
    runFor (n + k) s = .next t := by
  induction n generalizing s with
  | zero =>
    cases h
    exact runFor_ended ht _
  | succ n ih =>
    rw [Nat.succ_add]
    rw [runFor] at h ⊢
    split at h
    · simp_all
    · simp_all only [Bool.not_eq_true, Bool.false_eq_true, if_false]
      cases hs : step s with
      | next u =>
        rw [hs] at h
        exact ih h
      | fault r => rw [hs] at h; cases h
      | refused r => rw [hs] at h; cases h

/-- A test run has at most one end state. -/
theorem isTestRun_unique {p : List EventLine} {s t u : State} (h : IsTestRun p s t) (h' : IsTestRun p s u) :
    t = u := by
  obtain ⟨_, ht, n, hn⟩ := h
  obtain ⟨_, hu, m, hm⟩ := h'
  have h1 := runFor_add hn ht m
  rw [Nat.add_comm, runFor_add hm hu n] at h1
  exact (Host.Outcome.next.inj h1).symm

end Sys2Proof.Machine
end

