-- ==== Sys2Proof/Laws/Step.lean ====
section
/-! SUPPORT. What a step can do, said once: who moves, what is fetched, and what runs. -/

namespace Sys2Proof.Machine

/-- Lines 3 and 4 when the words fit: the decoder's writes, the words behind those queued before, and on to line 5. -/
theorem decodeLine_of_fits {s : State} (hf : s.fault = none)
    (h : s.opq.length + (decodeInputs s).2.length ≤ 64) :
    decodeLine s = { (decodeInputs s).1 with opq := s.opq ++ (decodeInputs s).2, pos := .update } := by
  have ho : (decodeInputs s).1.opq = s.opq := by simp [decodeInputs]
  have h1 : (decodeInputs s).1.fault = none := by simp [decodeInputs, hf]
  unfold decodeLine
  rw [pushAll_of_fits _ _ (by rw [ho]; exact h), ho]
  generalize (decodeInputs s).1 = u at *
  simp only [afterPushes, h1]

/-- The words of a pass, as the emission of its decode. -/
theorem decodeInputs_snd (s : State) :
    (decodeInputs s).2 = emitWords s.dRst s.dClk (decodedWith pinMap Config.debounceHold s) := rfl

/-- What lines 3 and 4 leave when the words fit: no fault, the words queued, and the position at line 5. Cite this
rather than unfold the decoder inside a record. -/
theorem decodeLine_fields {s : State} (hf : s.fault = none)
    (h : s.opq.length + (decodeInputs s).2.length ≤ 64) :
    (decodeLine s).fault = none ∧ (decodeLine s).opq = s.opq ++ (decodeInputs s).2 ∧
      (decodeLine s).pos = .update := by
  have h1 : (decodeInputs s).1.fault = none := by simp only [decodeInputs, decoderWrites_fault, hf]
  have key : ∀ (u : State) (ws : List OpWord), u.fault = none → ∀ t, t = { u with opq := ws, pos := .update } →
      t.fault = none ∧ t.opq = ws ∧ t.pos = .update := by
    rintro u ws hu t rfl
    exact ⟨hu, rfl, rfl⟩
  exact key _ _ h1 _ (decodeLine_of_fits hf h)

/-- Deciding who moves takes inputs from the list, or a draw; nothing else changes. -/
theorem nextMove_frame (s : State) : ∃ st k, (nextMove s).2 = { s with stim := st, freeIdx := k } := by
  unfold nextMove
  repeat' split
  all_goals exact ⟨_, _, rfl⟩

/-- The pass agent moves only inside a pass. -/
theorem nextMove_pass {s s1 : State} (h : nextMove s = (.pass, s1)) : midPass s.pos = true := by
  by_contra hm
  rw [nextMove, if_neg hm] at h
  split at h <;> cases h

/-- An input inside a pass is one that may fall there. -/
theorem nextMove_env {s s1 : State} {x : Stimulus} (h : nextMove s = (.env x, s1)) :
    midPass s.pos = false ∨ mayPreempt x = true := by
  by_cases hm : midPass s.pos = true
  · refine .inr ?_
    simp only [nextMove, hm, if_true] at h
    repeat' split at h
    all_goals simp_all
  · exact .inl (by simpa using hm)

/-- The three places an instruction is fetched from, and what the fetch changes. -/
theorem fetch_cases {s s1 : State} {r : Raw} (h : fetch s = some (r, s1)) :
    ∃ st k,
      (∃ code operand, r = .capevt code operand ∧ s.pos ≠ .boot ∧ s1 = { s with stim := st, freeIdx := k }) ∨
      (∃ w ws, r = .opw w ∧ s.pos = .update ∧ s.opq = w :: ws ∧
        s1 = { s with opq := ws, stim := st, freeIdx := k }) ∨
      (r = .gcmd s.gateCmd ∧ s.pos = .apply ∧
        s1 = { s with pos := afterGate s.gateTrk, stim := st, freeIdx := k }) := by
  obtain ⟨st, k, hk⟩ := nextMove_frame s
  refine ⟨st, k, ?_⟩
  unfold fetch at h
  split at h
  · rename_i code operand s2 hm
    have h2 : s2 = { s with stim := st, freeIdx := k } := by rw [← hk, hm]
    split at h
    · cases h
    · rename_i hb
      cases h
      exact .inl ⟨code, operand, rfl, by simpa [h2] using hb, h2⟩
  · cases h
  · rename_i s2 hm
    have h2 : s2 = { s with stim := st, freeIdx := k } := by rw [← hk, hm]
    subst h2
    split at h
    · rename_i w ws hp ho
      cases h
      exact .inr (.inl ⟨w, ws, rfl, hp, ho, rfl⟩)
    · rename_i hp
      cases h
      exact .inr (.inr ⟨rfl, hp, rfl⟩)
    · cases h

/-- A step of a machine without fault runs the fetched instruction, or is a step of the environment or of the pass
agent. -/
theorem step_cases {s t : State} (hf : s.fault = none) (h : step s = .next t) :
    (∃ r s1, fetch s = some (r, s1) ∧ runRaw r s1 = .next t) ∨
    (∃ x s1, nextMove s = (.env x, s1) ∧ envStep x s1 = .next t) ∨
    (∃ s1, fetch s = none ∧ nextMove s = (.pass, s1) ∧ t = passLine s1) := by
  simp only [step, hf, runningStep] at h
  split at h
  · rename_i r s1 hr
    exact .inl ⟨r, s1, hr, h⟩
  · rename_i hn
    simp only [controlStep] at h
    split at h
    · rename_i x s1 hm
      exact .inr (.inl ⟨x, s1, hm, h⟩)
    · rename_i s1 hm
      cases h
      exact .inr (.inr ⟨s1, hn, hm, rfl⟩)

/-- What running a fetched instruction can answer with a next state: its meaning's, or RESERVED_OP. -/
theorem runRaw_cases {r : Raw} {s t : State} (h : runRaw r s = .next t) :
    (∃ i, decode r = .ok i ∧ timeOrdered i s = true ∧ exec i s = .next t) ∨
    (∃ w e, r = .opw w ∧ decodeOpw w = .error e ∧ t = raise .reservedOp s) := by
  unfold runRaw at h
  split at h
  · rename_i i hi
    split at h
    · rename_i ht
      exact .inl ⟨i, hi, ht, h⟩
    · cases h
  · rename_i e he
    split at h
    · cases h
      exact .inr ⟨_, e, rfl, he, rfl⟩
    · simp [decode] at he
    · cases h

end Sys2Proof.Machine
end

