-- ==== Sys2Proof/Machine/WaveDefaults.lean ====
section
/-! DEFINITION. The default SINE and TRI (spec/44_lfo.md R225; PRESUMED, the spec's general knowledge, log entry 22). The
machine takes SINE and TRI as parameters (spec/00_scope.md R15) and does not use these. -/

namespace Sys2Proof.Machine

/-- `f` is the default sine: `floor(2048 + 2047 * sin(2π q / 2^32) + 1/2)` (R225). -/
def IsDefaultSine (f : BitVec 32 → Sample) : Prop :=
  ∀ q, ((f q).toNat : Int) = ⌊(2048 : ℝ) + 2047 * Real.sin (2 * Real.pi * (q.toNat : ℝ) / 2 ^ 32) + 1 / 2⌋

/-- `tri(q)`, between -1 and 1 (R225). -/
def triRatio (q : Nat) : ℚ :=
  if q < 2 ^ 30 then 4 * (q : ℚ) / 2 ^ 32
  else if q < 3 * 2 ^ 30 then 2 - 4 * (q : ℚ) / 2 ^ 32
  else 4 * (q : ℚ) / 2 ^ 32 - 4

/-- `f` is the default triangle: `floor(2048 + 2047 * tri(q) + 1/2)` (R225). -/
def IsDefaultTri (f : BitVec 32 → Sample) : Prop :=
  ∀ q, ((f q).toNat : Int) = ⌊(2048 : ℚ) + 2047 * triRatio q.toNat + 1 / 2⌋

/-- The default triangle in whole numbers: the three branches of R225 over the common denominator 2^31. -/
def defaultTri (q : BitVec 32) : Sample :=
  let n := q.toNat
  BitVec.ofNat 12
    (if n < 2 ^ 30 then (4097 * 2 ^ 30 + 4094 * n) / 2 ^ 31
     else if n < 3 * 2 ^ 30 then (12285 * 2 ^ 30 - 4094 * n) / 2 ^ 31
     else (4094 * n - 12279 * 2 ^ 30) / 2 ^ 31)

end Sys2Proof.Machine
end

