-- ==== Sys2Proof/Tests/Slice0.lean ====
section
/-! SUPPORT. Tests: ill-formed terms, words written out from spec/30_encoding.md, one step at a time on a small state
against the vectors of spec/95_test_vectors.md (named V-... in the comments), and a witness for every obligation that
has hypotheses. -/

namespace Sys2Proof.Tests

open Sys2Proof.Machine

/-! ### Helpers -/

/-- A running machine between passes with every parameter-dependent field at a plain value: the default Params
(spec/10_state.md R60), patterns that alternate, duty 50. -/
def base : State :=
  { State.reset with
    irqEnabled := true
    pos := .idle
    params := defaultParams
    dpt := dptOf defaultParams
    patterns := PerTrack.const [true, false, true, false, true, false, true, false]
    table := PerTrack.const (Vector.replicate 64 7)
    duty := PerTrack.const 50
    expCache := ⟨0, 0⟩
    btn := PerControl.const ⟨false, 0, false⟩
    ast := 0
    pst := 0 }

/-- The outcome is a next state with this property. -/
def nextIs (o : Out) (p : State → Bool) : Bool :=
  match o with
  | .next t => p t
  | .fault _ => false
  | .refused _ => false

/-! ### Ill-formed terms are refused -/

theorem test_wf_tick_interval : (Instr.tick (2 ^ 32)).wellFormed = false := by decide
theorem test_wf_seed_delta : (Instr.seed (2 ^ 31)).wellFormed = false := by decide
theorem test_wf_length_delta : (Instr.length (-2 ^ 31 - 1)).wellFormed = false := by decide
theorem test_wf_offset_delta : (Instr.offset .t1 (2 ^ 31)).wellFormed = false := by decide
theorem test_wf_steps_delta : (Instr.steps .t2 (-2 ^ 31 - 1)).wellFormed = false := by decide

/-! ### Words written out from the encoding tables -/

theorem test_decode_tick : decode (.opw 0x000003E800000000) = .ok (.tick 1000) := by decide
theorem test_decode_reset : decode (.opw 0x0000000000000001) = .ok .reset := by decide
theorem test_decode_seed : decode (.opw 0xFFFFFFFE00000002) = .ok (.seed (-2)) := by decide
theorem test_decode_seedClick : decode (.opw 0x0000000000000003) = .ok .seedClick := by decide
theorem test_decode_length : decode (.opw 0x0000000100000004) = .ok (.length 1) := by decide
theorem test_decode_lengthClick : decode (.opw 0x0000000000000005) = .ok .lengthClick := by decide
theorem test_decode_offset : decode (.opw 0x8000000000000036) = .ok (.offset .t3 (-2147483648)) := by decide
theorem test_decode_offsetClick : decode (.opw 0x0000000000000007) = .ok (.offsetClick .t0) := by decide
theorem test_decode_steps : decode (.opw 0xFFFFFFFF00000018) = .ok (.steps .t1 (-1)) := by decide
theorem test_decode_stepsClick : decode (.opw 0x0000000000000039) = .ok (.stepsClick .t3) := by decide
theorem test_decode_retain : decode (.gcmd 0b00) = .ok .retain := by decide
theorem test_decode_set : decode (.gcmd 0b01) = .ok .set := by decide
theorem test_decode_clear : decode (.gcmd 0b10) = .ok .clear := by decide
theorem test_decode_gcmdReserved : decode (.gcmd 0b11) = .ok .gcmdReserved := by decide
theorem test_decode_clk : decode (.capevt 0x00 1000) = .ok (.clk 1000) := by decide
theorem test_decode_rst : decode (.capevt 0x01 0) = .ok .rst := by decide
theorem test_decode_rstclk : decode (.capevt 0x02 2000) = .ok (.rstclk 2000) := by decide
theorem test_decode_exp0 : decode (.capevt 0x03 0x0003) = .ok (.exp0 0x0003) := by decide
theorem test_decode_exp1 : decode (.capevt 0x04 0xFFFF) = .ok (.exp1 0xFFFF) := by decide
theorem test_decode_flaws :
    decode (.opw 0x0A) = .error .reservedOpcode ∧ decode (.opw 0x41) = .error .reservedBits ∧
    decode (.opw 0x11) = .error .strayTrack ∧ decode (.opw 0x0000000500000003) = .error .strayPayload ∧
    decode (.capevt 0x05 0) = .error .reservedEvent ∧ decode (.capevt 0x01 1) = .error .strayOperand := by decide

theorem test_table_opw : decodeTableWord 64 0xFFFFFFFF00000002 = some (.seed (-1)) := by decide
theorem test_table_opw_half : decodeTableWord 32 0x00000002 = some (.seed 0) := by decide
theorem test_table_gcmd : decodeTableWord 2 2 = some .clear := by decide
theorem test_table_capevt : decodeTableWord 8 4 = some (.exp1 0) := by decide
theorem test_table_refused : decodeTableWord 64 0x0A = none ∧ decodeTableWord 8 5 = none := by decide

theorem test_codes : modeCode (.offset .t2) = 0b10010 ∧ modeCode (.trackSync .t3) = 0b11111 ∧
    modeCode .fate = 0b01000 ∧ syncCode .loop = 2 ∧ lfoCode .square180 = 11 ∧ faultCodeBits .busError = 3 := by decide

/-! ### Instructions, one step each -/

-- V-SEQ-1
theorem test_tick :
    nextIs (exec (.tick 800) { base with gph := 4, resetArmed := false, tickCount := 9, now := 5000 })
      (fun t => t.gph == 5 && t.tickCount == 10 && t.lastTickTime == 5000 && t.tph == PerTrack.const 5) = true := by
  decide
-- V-SEQ-3, and S7 for track 0
theorem test_tick_wraps :
    nextIs (exec (.tick 1) { base with gph := 0xFFFFFFFF, resetArmed := false }) (fun t => t.gph == 0) = true := by
  decide
-- V-SEQ-4
theorem test_reset :
    nextIs (exec .reset { base with gph := 7, predicted := 900, resetArmed := false })
      (fun t => t.gph == 7 && t.resetArmed && t.predicted == 900) = true := by decide
-- V-SEQ-5
theorem test_seed :
    nextIs (exec (.seed (-1)) { base with params := { defaultParams with seed := 5000 } })
      (fun t => t.params.seed == 4999 && t.mode == .seed && t.regen && t.acted) = true := by decide
-- V-SEQ-6
theorem test_seed_rejected :
    nextIs (exec (.seed 1) { base with params := { defaultParams with seed := 9999 } })
      (fun t => t.params.seed == 9999 && t.mode == .run && !t.regen && !t.acted) = true := by decide
-- V-SEQ-11
theorem test_seedClick :
    nextIs (exec .seedClick { base with mode := .length }) (fun t => t.mode == .fate && t.acted) = true := by decide
-- V-SEQ-10
theorem test_seedClick_back :
    nextIs (exec .seedClick { base with mode := .fate }) (fun t => t.mode == .seed) = true := by decide
-- V-SEQ-16
theorem test_length :
    nextIs (exec (.length 1) { base with mode := .fate })
      (fun t => t.params.patternLength == 17 && t.mode == .length) = true := by decide
-- V-SEQ-14
theorem test_length_rejected :
    nextIs (exec (.length 49) base) (fun t => t.params.patternLength == 16 && t.mode == .run && !t.acted) = true := by
  decide
-- V-SEQ-17
theorem test_lengthClick : nextIs (exec .lengthClick base) (fun t => t.mode == .run && !t.acted) = true := by decide
-- V-SEQ-18
theorem test_offset :
    nextIs (exec (.offset .t2 3) { base with params := { defaultParams with offset := ⟨0, 0, 15, 0⟩ } })
      (fun t => t.params.offset == ⟨0, 0, 2, 0⟩ && t.mode == .offset .t2 && t.regen) = true := by decide
-- V-SEQ-22
theorem test_offset_lfo :
    nextIs (exec (.offset .t1 25) { base with mode := .lfo .t1, lfoMode := PerTrack.const .sine180 })
      (fun t => t.lfoMode == ⟨.sine180, .tri, .sine180, .sine180⟩ && t.mode == .lfo .t1 && t.regen) = true := by decide
-- V-SEQ-26
theorem test_offsetClick :
    nextIs (exec (.offsetClick .t2) { base with mode := .lfo .t1 }) (fun t => t.mode == .lfo .t2) = true := by decide
-- V-SEQ-34
theorem test_steps :
    nextIs (exec (.steps .t0 (-3))
        { base with params := { defaultParams with
            steps := ⟨1, 0, 0, 0⟩, length := ⟨4, 16, 16, 16⟩, offset := ⟨3, 0, 0, 0⟩ } })
      (fun t => t.params.steps.t0 == 2 && t.params.length.t0 == 3 && t.params.offset.t0 == 0 &&
        t.mode == .steps .t0) = true := by decide
-- V-SEQ-36
theorem test_steps_sync :
    nextIs (exec (.steps .t0 (-1)) { base with mode := .trackSync .t0 })
      (fun t => t.sync == ⟨.loop, .sync, .sync, .sync⟩ && !t.regen && t.mode == .trackSync .t0) = true := by decide
-- V-SEQ-39
theorem test_stepsClick :
    nextIs (exec (.stepsClick .t3) { base with mode := .trackSync .t3 }) (fun t => t.mode == .steps .t3) = true := by
  decide
-- S10
theorem test_set :
    nextIs (exec .set { base with gateTrk := .t1, now := 10000, predicted := 1000 })
      (fun t => t.level.t1 && t.clearAt.t1 == some 10500 && t.gateHigh.t1 && t.dac == [(.t1, 7)]) = true := by decide
-- V-GAT-9, and V-LFO-12
theorem test_set_floor :
    nextIs (exec .set { base with predicted := 999, gateHigh := PerTrack.const true })
      (fun t => t.clearAt.t0 == some 499 && t.dac == []) = true := by decide
-- R245, example
theorem test_clear :
    nextIs (exec .clear { base with now := 10200, level := PerTrack.const true, clearAt := PerTrack.const (some 10500) })
      (fun t => !t.level.t0 && t.clearAt.t0 == none && t.level.t3) = true := by decide
-- V-GAT-5
theorem test_retain :
    nextIs (exec .retain { base with now := 10500, level := PerTrack.const true, clearAt := PerTrack.const (some 10500) })
      (fun t => !t.level.t0 && t.clearAt.t0 == none) = true := by decide
-- V-GAT-4
theorem test_retain_early :
    nextIs (exec .retain { base with now := 10499, level := PerTrack.const true, clearAt := PerTrack.const (some 10500) })
      (fun t => t.level.t0 && t.clearAt.t0 == some 10500) = true := by decide
-- V-GAT-13
theorem test_gcmdReserved : nextIs (exec .gcmdReserved base) (fun t => t.fault == some .reservedOp) = true := by decide
-- R120, corner case: the newest timestamp
theorem test_clk :
    nextIs (exec (.clk 1200) { base with irqPend := ⟨true, true, false, false⟩, clkPending := true, clkTs := 1000 })
      (fun t => t.clkPending && t.clkTs == 1200 && t.irqPend == ⟨false, true, false, false⟩) = true := by decide
-- R121
theorem test_rst :
    nextIs (exec .rst { base with irqPend := ⟨true, true, false, false⟩ })
      (fun t => t.rstPending && !t.clkPending && t.irqPend == ⟨true, false, false, false⟩) = true := by decide
-- R122, example
theorem test_rstclk :
    nextIs (exec (.rstclk 2000) { base with irqPend := ⟨true, true, true, false⟩ })
      (fun t => t.rstPending && t.clkPending && t.clkTs == 2000 && t.irqPend == ⟨false, false, true, false⟩) = true := by
  decide
-- R123, example
theorem test_exp0 :
    nextIs (exec (.exp0 0x0003) { base with irqPend := ⟨false, false, true, true⟩ })
      (fun t => t.expq == ⟨[0x0003], []⟩ && t.irqPend == ⟨false, false, false, true⟩) = true := by decide
-- V-CAP-6, on the other expander: the oldest of 65 is dropped
theorem test_exp1_overflow :
    nextIs (exec (.exp1 64) { base with irqPend := ⟨false, false, true, true⟩
                                        expq := ⟨[], (List.range 64).map (BitVec.ofNat 16)⟩ })
      (fun t => t.expq.e1 == (List.range 64).map (fun n => BitVec.ofNat 16 (n + 1)) && t.fault == none) = true := by
  decide

/-! ### The pass agent's steps -/

-- V-CAP-9
theorem test_edges_merge :
    nextIs (step { base with irqPend := ⟨true, false, false, false⟩, stim := [.edge .clk] })
      (fun t => t.irqPend == ⟨true, false, false, false⟩) = true := by decide
-- V-CAP-7
theorem test_stale_drain :
    nextIs (step { base with clkPending := true, clkTs := 90
                             stim := [.pass ⟨100, PerTrack.const false, false, some false⟩] })
      (fun t => t.clkPending && !t.dClk && t.pos == .decode) = true := by decide
-- V-FLT-1
theorem test_bus_error :
    nextIs (step { base with clkPending := true, stim := [.pass ⟨100, PerTrack.const false, true, none⟩] })
      (fun t => !t.clkPending && t.fault == some .busError && t.tickCount == 0) = true := by decide
-- V-FLT-2
theorem test_opq_overflow :
    nextIs (.next (pushAll [1] { base with opq := List.replicate 64 0 }))
      (fun t => t.fault == some .opqOverflow && t.opq.length == 64) = true := by decide
-- V-FLT-3, second word
theorem test_reserved_word :
    nextIs (step { base with pos := .update, opq := [0x0A, 0x0000000100000004] })
      (fun t => t.fault == some .reservedOp && t.opq == [0x0000000100000004]) = true := by decide
-- V-FLT-5 and V-FLT-7
theorem test_boot_fault : (boot false base).fault = some .bootConfig := by decide
theorem test_fault_stops :
    step { base with fault := some .busError, stim := [.capture 1 0] } = .fault (.halted .busError) := rfl
-- V-TIM-1 and V-TIM-2, with 5 * TIME_HZ = 5000
theorem test_idle_revert : idleMode 5000 6999 2000 .seed = .seed ∧ idleMode 5000 7000 2000 .seed = .run := by decide
-- V-TIM-4, V-TIM-5, V-TIM-6 and V-TIM-7
theorem test_phase :
    phaseOf 10500 10000 1000 1 0x0FFFFFFF = 0x17FFFFFE ∧ phaseOf 11500 10000 1000 1 0x0FFFFFFF = 0x1FFFFFFE ∧
    phaseOf 99 0 0 3 0x0FFFFFFF = 0x2FFFFFFD ∧ phaseOf 99 0 0 15 0x7FFFFFFF = 0x7FFFFFF1 := by decide
-- V-LFO-1 and V-LFO-4
theorem test_wave :
    wave .sawUp 0x17FFFFFE = some 383 ∧ wave .sawDown 0x17FFFFFE = some 3712 ∧ wave .square 0x17FFFFFE = some 4095 ∧
    wave .square90 0x17FFFFFE = some 4095 ∧ wave .square180 0x17FFFFFE = some 0 ∧
    wave .square90 0x60000000 = some 0 := by decide
-- V-LFO-7 and V-LFO-8
theorem test_setOffset :
    (lfoSetOffset .t1 0x17FFFFFE { base with lfoMode := PerTrack.const .sawUp
                                             lastOut := PerTrack.const (some 383) }).dac = [] ∧
    (lfoSetOffset .t1 0x18000000 { base with lfoMode := PerTrack.const .sawUp
                                             lastOut := PerTrack.const (some 383) }).dac = [(.t1, 384)] := by decide
-- V-LFO-11
theorem test_random_index :
    (lfoGate .t0 true { base with randIdx := PerTrack.const 4
                                  table := PerTrack.const ((Vector.replicate 64 7).set 1 99)
                                  params := { defaultParams with steps := PerTrack.const 3 } }).dac = [(.t0, 99)] := by
  decide
-- V-GAT-1, V-GAT-2 and V-GAT-12
theorem test_gate_select :
    let s := { base with ticked := true, tph := PerTrack.const 4, lastGateIndex := PerTrack.const (some 3) }
    selectedCmd .t0 s = 0b01 ∧ selectedCmd .t0 { s with mute := PerTrack.const true } = 0b10 ∧
    selectedCmd .t0 { s with tph := PerTrack.const 20 } = 0b10 ∧ selectedCmd .t0 { s with ticked := false } = 0 := by
  decide
-- R147, example
theorem test_qstep : qstep ⟨0b0001, 0x81⟩ 0b11 = (⟨0b0111, 0x17⟩, 1) := by decide
-- V-DEC-4
theorem test_qstep_bounce : qstep ⟨0b0011, 0xE8⟩ 0b00 = (⟨0b1100, 0xE8⟩, 0) := by decide
-- V-DEC-6
theorem test_debounce :
    debounce 100 1099 ⟨true, 1000, false⟩ = (⟨true, 1000, false⟩, false) ∧
    debounce 100 1100 ⟨true, 1000, false⟩ = (⟨true, 1000, true⟩, true) := by decide
-- V-DEC-5: one positive detent of the seed encoder with the default PIN_MAP
theorem test_seed_detent :
    (runEncoder (defaultPinMap.enc.get .seed)
      ((([0x0001, 0x0000, 0x0002, 0x0003] : List Snap)).map fun v => (Expander.e0, v)) ⟨0b0011, 0⟩).2 = 1 := by decide
-- V-DEC-8
theorem test_emission_order :
    emitWords true true
      { enc := PerControl.const ⟨0, 0⟩
        raw := { PerControl.const 0 with offset := ⟨0, 0, -1, 0⟩ }
        btn := PerControl.const ⟨false, 0, false⟩
        click := { PerControl.const false with seed := true }
        ast := 0, dSeed := 1, interval := 500 } =
      [0x0000000000000001, 0x000001F400000000, 0x0000000100000002, 0x0000000000000003, 0xFFFFFFFF00000026] := by
  decide
theorem test_default_pins : pinMapLegal defaultPinMap := by decide

-- R82: a capture that falls between the events of line 7 and line 8 finds none of the pass's events out.
theorem test_capture_between_events :
    nextIs (step { base with pos := .gate .t0, dac := [(.t2, 5)], irqPend := ⟨false, true, false, false⟩
                             stim := [.preempt, .capture 1 0] })
      (fun t => t.rstPending && t.pos == .gate .t0 && dacOut t == []) = true := by decide

/-! ### Test runs (spec/70_reset_and_hazards.md R305) -/

-- From reset, boot comes first and the captures then run.
theorem test_run_from_reset :
    nextIs (runFor 5 (programFromReset [.rst, .clk 1000]))
      (fun t => runEnded t && normalEnd t && t.rstPending && t.clkPending && t.clkTs == 1000) = true := rfl
-- An edge with no capture yet is a fact in flight at the end.
theorem test_facts_in_flight :
    nextIs (runFor 9 { base with stim := [.edge .exp1, .edge .clk, .capture 0 7] })
      (fun t => factsInFlight t == (true, false, ⟨[], []⟩, [.exp1])) = true := by decide

/-! ### Text -/

theorem test_text_clk : readLine "CLK 1000   ; the clock".toList = some (.event (.clk 1000)) := by decide
theorem test_text_pass :
    readLine "PASS 3000 MUTE 0001 DIRTY 0".toList =
      some (.event (.pass 3000 ⟨true, false, false, false⟩ (some false))) := by decide
theorem test_text_op : readLine "STEPS 1, -1".toList = some (.instr (.steps .t1 (-1))) := by decide

/-! ### Witnesses: concrete states and operands that meet each obligation's hypotheses, clause by clause -/

/-- A pass input at time `n`. -/
def passAt (n : Nat) (dirty : Option Bool) (busErr : Bool) : PassInput :=
  { now := BitVec.ofNat 64 n, mute := PerTrack.const false, busErr := busErr, dirty := dirty }

/-- Every capture line pending. -/
def allPending : State := { base with irqPend := ⟨true, true, true, true⟩ }

/-- `base` with inputs to come. -/
def withStim (l : List Stimulus) : State := { base with stim := l }

theorem withStim_inv (l : List Stimulus) : Inv (withStim l) := by
  refine .inr
    { params := (by decide : paramsLegal defaultParams)
      expq := fun e => by cases e <;> exact Nat.zero_le _
      dSnap := fun e => by cases e <;> exact Nat.zero_le _
      opqBound := Nat.zero_le _
      opqWords := fun _ h => (nomatch h)
      opqEmpty := fun _ _ => rfl
      regenDone := fun _ => rfl
      dpt := fun _ t => by cases t <;> rfl
      tph := fun t => by cases t <;> exact Nat.zero_le _
      clearAt := fun t _ => by cases t <;> rfl
      gateHigh := fun t => by cases t <;> rfl
      duty := fun t => by cases t <;> exact (by decide : 50 ≤ 100)
      gateCmd := (by decide : (0 : BitVec 2) ≠ 0b11)
      enabled := (by decide : (true = true) ↔ PassPos.idle ≠ PassPos.boot)
      noEarlyEdge := fun h => (nomatch h) }

theorem witness_EncodedInstructionDecodesBack :
    (Instr.tick (2 ^ 32 - 1)).wellFormed = true ∧ (Instr.seed (-2 ^ 31)).wellFormed = true ∧
    (Instr.offset .t3 (2 ^ 31 - 1)).wellFormed = true ∧ Instr.set.wellFormed = true ∧
    (Instr.exp1 0xFFFF).wellFormed = true := by decide

theorem witness_DecodedBitsEncodeBack :
    decode (.opw 0xFFFFFFFF00000000) = .ok (.tick 4294967295) ∧ decode (.gcmd 2) = .ok .clear ∧
    decode (.capevt 3 0xFFFF) = .ok (.exp0 0xFFFF) := by decide

theorem witness_EncoderLaysOutFields : (2 ^ 32 - 1 : Nat) < 2 ^ 32 := by decide

theorem witness_FetchedInstructionRuns :
    base.fault = none ∧
    fetch { base with pos := .update, opq := [1] } = some (.opw 1, { base with pos := .update, opq := [] }) ∧
    decode (.opw 1) = .ok .reset ∧ timeOrdered .reset { base with pos := .update, opq := [] } = true ∧
    ({ base with pos := .update, opq := [1] } : State).stim = [] ∧
    ({ base with pos := .apply } : State).stim = [] ∧
    ({ base with stim := [.capture 1 0] } : State).pos = .idle :=
  ⟨rfl, rfl, rfl, rfl, rfl, rfl, rfl⟩

theorem witness_PlacedInstructionCompletes :
    rawOfTableWord 64 0x0000000100000004 = some (.opw 0x0000000100000004) ∧
    decode (.opw 0x0000000100000004) = .ok (.length 1) ∧
    rawOfTableWord 2 1 = some (.gcmd 1) ∧ decode (.gcmd 1) = .ok .set ∧
    rawOfTableWord 8 2 = some (.capevt 2 0) ∧ decode (.capevt 2 0) = .ok (.rstclk 0) := by decide

theorem witness_UndecodableBitsRaiseOrAreRefused :
    base.fault = none ∧ base.stim = [] ∧ ({ base with pos := .update, opq := [0x0A] } : State).opq = [0x0A] ∧
    (∀ i, decode (.opw 0x0A) ≠ .ok i) ∧
    ({ base with stim := [.capture 5 0] } : State).pos = .idle ∧ 5 ≤ (5 : BitVec 8).toNat ∧
    5 ≤ (0xFF : BitVec 8).toNat :=
  ⟨rfl, rfl, rfl, fun _ h => (nomatch h), rfl, by decide, by decide⟩

theorem witness_ClockAndResetCaptures :
    allPending.fault = none ∧ allPending.irqPend.clk = true ∧ allPending.irqPend.rst = true := by decide

theorem witness_ExpanderCaptureKeepsNewest64 :
    allPending.fault = none ∧ allPending.irqPend.exp0 = true ∧ allPending.irqPend.exp1 = true ∧
    ({ allPending with expq := ⟨List.replicate 64 0, []⟩ } : State).expq.e0.length ≤ 64 ∧
    ({ allPending with expq := ⟨List.replicate 64 0, []⟩ } : State).expq.e1.length ≤ 64 := by decide

theorem witness_CaptureWithoutPendingRefused :
    base.fault = none ∧ base.irqPend = ⟨false, false, false, false⟩ ∧
    ({ base with irqPend := ⟨false, true, false, false⟩ } : State).irqPend.rst = true ∧
    ({ base with irqPend := ⟨false, true, false, false⟩ } : State).irqPend.clk = false := by decide

theorem witness_CapturesOfDifferentLinesCommute :
    let s := { base with irqPend := ⟨false, true, false, true⟩ }
    (Line.rst, Instr.rst) ∈ [(Line.clk, Instr.clk 5), (.rst, .rst), (.exp0, .exp0 1), (.exp1, .exp1 2)] ∧
    (Line.exp1, Instr.exp1 2) ∈ [(Line.clk, Instr.clk 5), (.rst, .rst), (.exp0, .exp0 1), (.exp1, .exp1 2)] ∧
    Line.rst ≠ Line.exp1 ∧ s.fault = none ∧ s.irqPend.get .rst = true ∧ s.irqPend.get .exp1 = true :=
  ⟨by decide, by decide, by decide, rfl, rfl, rfl⟩

theorem witness_InstructionsKeepToTheirDomain :
    (∃ t, exec .rst allPending = .next t) ∧ (∃ t, exec .set allPending = .next t) ∧ isCapture .rst = true ∧
    isCapture .set = false ∧ allPending.fault = none ∧
    captureDomain allPending = captureDomain { allPending with gph := 7 } :=
  ⟨⟨_, rfl⟩, ⟨_, rfl⟩, rfl, rfl, rfl, rfl⟩

theorem witness_EdgeSetsPendingFlag :
    base.fault = none ∧ base.pos = .idle ∧ base.irqEnabled = true ∧
    ({ base with stim := [.edge .rst] } : State).stim = [.edge .rst] ∧
    State.reset.pos = .boot ∧ State.reset.irqEnabled = false ∧ allPending.irqPend.get .rst = true ∧
    ({ base with pos := .gate .t0, stim := [.preempt, .edge .rst] } : State).pos ≠ .idle ∧
    ({ base with pos := .gate .t0, stim := [.preempt, .edge .rst] } : State).pos ≠ .boot ∧
    ({ base with pos := .gate .t0, stim := [.preempt, .edge .rst] } : State).stim = .preempt :: .edge .rst :: [] :=
  ⟨rfl, rfl, rfl, rfl, rfl, rfl, rfl, nofun, nofun, rfl⟩

theorem witness_TickResult : (2 ^ 32 - 1 : Nat) < 2 ^ 32 ∧ base.fault = none ∧ base.resetArmed = true ∧
    ({ base with resetArmed := false } : State).fault = none := by decide

theorem witness_PlayheadLaws :
    (∃ t, exec (.tick 1000) { base with sync := ⟨.sync, .free, .loop, .sync⟩ } = .next t) ∧
    (∃ t, exec .reset base = .next t) := ⟨⟨_, rfl⟩, ⟨_, rfl⟩⟩

theorem witness_ResetThenTickRestarts : base.fault = none ∧ base.sync.get .t0 ≠ .loop := by decide

theorem witness_SeedEdit :
    base.fault = none ∧ base.mode ≠ .fate ∧ (base.params.seed : Int) + 9999 = (9999 : Nat) ∧
    (base.params.seed : Int) + 0 = (0 : Nat) ∧ (base.params.seed : Int) + -1 < 0 ∧
    9999 < (base.params.seed : Int) + 10000 := by decide

theorem witness_FateDrawsStayInTheirSets :
    ({ base with mode := .fate } : State).fault = none ∧ ({ base with mode := .fate } : State).mode = .fate := by decide

theorem witness_ClicksToggleMode :
    base.fault = none ∧ ({ base with mode := .fate } : State).mode = .fate ∧ base.mode ≠ .fate ∧
    ({ base with mode := .lfo .t3 } : State).mode = .lfo .t3 ∧ base.mode ≠ .lfo .t3 ∧
    ({ base with mode := .trackSync .t3 } : State).mode = .trackSync .t3 ∧ base.mode ≠ .trackSync .t3 := by decide

theorem witness_LengthOperations :
    base.fault = none ∧ (base.params.patternLength : Int) + -14 = (2 : Nat) ∧
    (base.params.patternLength : Int) + 48 = (64 : Nat) ∧ (base.params.patternLength : Int) + -15 < 2 ∧
    64 < (base.params.patternLength : Int) + 49 := by decide

theorem witness_OffsetEdit :
    base.fault = none ∧ ({ base with mode := .lfo .t1 } : State).mode = .lfo .t1 ∧ base.mode ≠ .lfo .t1 ∧
    0 < base.params.length.get .t1 := by decide

theorem witness_StepsEdit :
    base.fault = none ∧ ({ base with mode := .trackSync .t1 } : State).mode = .trackSync .t1 ∧
    base.mode ≠ .trackSync .t1 := by decide

theorem witness_UnitStepWrapsThenClamps : (2 : Nat) ≤ 2 ∧ (64 : Nat) ≤ 64 ∧ (0 : Nat) ≤ 2 ∧ (64 : Nat) ≤ 64 := by decide

theorem witness_ParamsStayInBounds :
    (∃ t, execAll [.steps .t0 (-3), .seed 4, .length (-14)] base = .next t) ∧ paramsLegal base.params :=
  ⟨⟨_, rfl⟩, by decide⟩

theorem witness_OnlyEffectiveUserOperationsAreAccepted :
    base.acted = false ∧ nextIs (exec (.seed 9999) base) (fun t => t.acted) = true ∧
    nextIs (exec (.seed 10000) base) (fun t => !t.acted) = true ∧
    nextIs (exec (.length (-14)) base) (fun t => t.acted) = true ∧
    nextIs (exec (.length (-15)) base) (fun t => !t.acted) = true ∧
    nextIs (exec .lengthClick base) (fun t => !t.acted) = true ∧ isUserOp (.seed 10000) = true := by decide

theorem witness_EmptyUpdateWritesNothing :
    base.fault = none ∧ ({ base with pos := .update } : State).pos = .update ∧ base.stim = [] ∧ base.opq = [] ∧
    base.regen = false ∧ base.acted = false ∧ base.ticked = false := by decide

theorem witness_UpdateEndRegenerates :
    base.fault = none ∧ ({ base with pos := .update, regen := true } : State).regen = true ∧ base.regen = false ∧
    ({ base with pos := .update, ticked := true } : State).pos = .update ∧ base.stim = [] ∧ base.opq = [] := by decide

theorem witness_GateCommandSelection :
    base.fault = none ∧ base.stim = [] ∧ base.ticked = false ∧
    base.lastGateIndex.get .t0 ≠ some (base.tph.get .t0) ∧
    (base.patterns.get .t0)[base.tph.get .t0]? = some true ∧ base.mute.get .t0 = false ∧
    (base.patterns.get .t0)[8]? ≠ some true := by decide

theorem witness_SetResult :
    base.fault = none ∧ paramsLegal base.params ∧
    base.now.toNat + base.predicted.toNat * base.duty.get base.gateTrk / 100 < 2 ^ 64 ∧
    base.gateHigh.get base.gateTrk = false ∧ base.lfoMode.get base.gateTrk = .random ∧
    ({ base with gateHigh := PerTrack.const true } : State).gateHigh.get .t0 = true := by decide

theorem witness_SetBeyondTimeRangeStillSets :
    base.fault = none ∧
    2 ^ 64 ≤ (0xFFFFFFFFFFFFFFFF : Time).toNat + (2 : Time).toNat * base.duty.get base.gateTrk / 100 := by decide

theorem witness_ClearAndRetainResults :
    base.fault = none ∧ base.clearAt.get base.gateTrk = none ∧
    ({ base with clearAt := PerTrack.const (some 9) } : State).clearAt.get .t0 = some 9 ∧
    (9 : Time).toNat ≤ (9 : Time).toNat ∧ (8 : Time).toNat < (9 : Time).toNat := by decide

theorem witness_ReservedGateCommandRaises : base.fault = none := by decide

theorem witness_DutyScenario :
    base.duty.get base.gateTrk = 50 ∧ ({ base with predicted := 1000 } : State).predicted = 1000 ∧
    base.now.toNat + 500 < 2 ^ 64 ∧ (∃ t, exec .set { base with predicted := 1000 } = .next t) ∧
    (499 : Time).toNat < base.now.toNat + 500 ∧ base.now.toNat + 500 ≤ (500 : Time).toNat :=
  ⟨by decide, by decide, by decide, ⟨_, rfl⟩, by decide, by decide⟩

theorem witness_SetOffsetSuppressesRepeats :
    base.lfoMode.get .t0 = .random ∧ wave .sawUp 0 = some 0 ∧
    ({ base with lastOut := PerTrack.const (some 0) } : State).lastOut.get .t0 = some 0 ∧
    base.lastOut.get .t0 ≠ some 0 := by decide

theorem witness_LfoLineEmitsInTrackOrder :
    let s := { base with pos := .lfo, lfoMode := ⟨.random, .sawUp, .sawUp, .square⟩
                         lastOut := ⟨none, some 0, some 1, none⟩ }
    s.fault = none ∧ s.pos = .lfo ∧ s.stim = [] ∧ s.lfoMode.get .t0 = .random ∧
    wave (s.lfoMode.get .t1) (s.phase.get .t1) = some 0 ∧ s.lastOut.get .t1 = some 0 ∧
    wave (s.lfoMode.get .t2) (s.phase.get .t2) = some 0 ∧ s.lastOut.get .t2 ≠ some 0 ∧
    nextIs (step s) (fun t => t.dac == [(.t2, 0), (.t3, 4095)]) = true := by decide

theorem witness_TimeStepResult :
    base.fault = none ∧ ({ base with pos := .time } : State).pos = .time ∧ base.stim = [] ∧ base.predicted = 0 ∧
    ({ base with predicted := 1 } : State).predicted ≠ 0 ∧ base.mode = .run := by decide

/-- The idle clause can be met whenever the timeout fits the 64-bit time; `TIME_HZ` is an open parameter with no
bound. -/
theorem witness_TimeStepResult_idle :
    5 * timeHz < 2 ^ 64 →
      5 * timeHz ≤ ({ base with mode := .seed, now := BitVec.ofNat 64 (5 * timeHz) } : State).now.toNat -
        ({ base with mode := .seed } : State).lastAction.toNat := by
  intro h
  show 5 * timeHz ≤ (BitVec.ofNat 64 (5 * timeHz)).toNat - 0
  rw [BitVec.toNat_ofNat, Nat.mod_eq_of_lt h]
  exact Nat.le_refl _

theorem witness_PhaseDoesNotWrapInRange : 63 < 64 ∧ (0x03FFFFFF : BitVec 32).toNat = 4294967295 / 64 := by decide

theorem witness_PhaseAdvancesBetweenTicks :
    1 < 2 ∧ (0x7FFFFFFF : BitVec 32).toNat = 4294967295 / 2 ∧ (5 : Time).toNat ≤ (6 : Time).toNat := by decide

theorem witness_DetentEmitsOnce :
    (⟨0b0011, 0xFF⟩ : Encoder).nib.toNat % 4 = 3 ∧
    qtab (qstep ⟨0b0011, 0xE8⟩ 0b00).1.nib = 0 ∧ qtab (qstep ⟨0b0001, 0x81⟩ 0b11).1.nib ≠ 0 ∧
    (qstep ⟨0b0001, 0x81⟩ 0b11).1.roll = 0x17 ∧ (qstep ⟨0b0010, 0x02⟩ 0b11).1.roll = 0x2B ∧
    (qstep ⟨0b0000, 0x00⟩ 0b01).1.roll ≠ 0x17 ∧ (qstep ⟨0b0000, 0x00⟩ 0b01).1.roll ≠ 0x2B := by decide

theorem witness_DebounceAndClick :
    Expander.e1 ≠ (defaultPinMap.btn.get .seed).exp ∧ (⟨true, 1000, false⟩ : Button).raw ≠ false ∧
    (100 : Time).toNat ≤ (1100 : Time).toNat - (1000 : Time).toNat ∧ (1000 : Time).toNat ≤ (1100 : Time).toNat ∧
    (1099 : Time).toNat < (1000 : Time).toNat + (100 : Time).toNat := by decide

theorem witness_DecoderEmitsInOrder :
    ({ base with dSnap := ⟨List.replicate 64 3, []⟩ } : State).dSnap.e0.length ≤ 64 ∧
    base.dSnap.e1.length ≤ 64 := by decide

theorem witness_ClockEdgeInterval :
    ({ base with dClk := true } : State).dClk = true ∧ base.dClk = false := by decide

theorem witness_DecoderCannotOverflow :
    base.fault = none ∧ ({ base with pos := .decode } : State).pos = .decode ∧ base.stim = [] ∧ base.opq = [] := by
  decide

theorem witness_DecodeWritesDecoderStateOnly :
    base.fault = none ∧ ({ base with pos := .decode } : State).pos = .decode ∧ base.stim = [] ∧ base.opq = [] ∧
    base.dSnap = ⟨[], []⟩ ∧ ({ base with dSnap := ⟨[1, 2], []⟩ } : State).dSnap.get .e0 = [1] ++ [2] := by decide

theorem witness_FullQueuePushFaults : ({ base with opq := List.replicate 64 1 } : State).opq.length = 64 := by decide

theorem witness_PassBeginsWithDrain :
    base.fault = none ∧ base.pos = .idle ∧ base.now.toNat ≤ (passAt 0 none false).now.toNat ∧
    base.clkTs.toNat ≤ (passAt 0 none false).now.toNat ∧ (passAt 0 none true).busErr = true ∧
    (passAt 0 (some true) false).dirty.getD (factsPending base) = true ∧
    (passAt 0 none false).dirty.getD (factsPending base) = false := by decide

theorem witness_MisorderedTimeRefused :
    base.fault = none ∧ base.pos = .idle ∧ (passAt 4 none false).now.toNat < (5 : Time).toNat ∧
    (passAt 4 none false).dirty.getD (factsPending { base with clkPending := true, clkTs := 5 }) = true := by decide

theorem witness_BootStep :
    State.reset.fault = none ∧ State.reset.pos = .boot ∧
    ({ State.reset with stim := [.boot false] } : State).stim = [.boot false] := ⟨rfl, rfl, rfl⟩

theorem witness_FirstTickAfterBoot :
    (boot true State.reset).fault = none ∧
    (∃ t, step { bootResult with stim := [.edge .clk] } = .next t ∧ t.fault ≠ some .bootConfig) ∧
    ¬ AppliesTick { bootResult with stim := [.edge .clk] } ∧
    ({ base with ticked := true } : State).ticked = true ∧ base.lastGateIndex = State.reset.lastGateIndex :=
  ⟨rfl, ⟨_, rfl, nofun⟩, fun ⟨_, _, _, _, h, _⟩ => (nomatch h), rfl, rfl⟩

/-- The invariant of O54's step clause holds of the boot result and of it with an input to come. -/
theorem witness_FirstTickAfterBoot_before :
    BeforeFirstTick bootResult ∧ BeforeFirstTick { bootResult with stim := [.edge .clk] } := by
  have h : ∀ l, BeforeFirstTick { bootResult with stim := l } := fun l =>
    { tickCount := rfl
      tph := fun k => by cases k <;> rfl
      predicted := rfl
      resetArmed := rfl
      phase := fun k => by cases k <;> rfl
      level := fun k => by cases k <;> rfl
      gateHigh := fun k => by cases k <;> rfl
      clearAt := fun k => by cases k <;> rfl
      lastGateIndex := fun k => by cases k <;> rfl
      ticked := rfl
      gateCmd := rfl }
  exact ⟨h [], h _⟩

theorem witness_FaultStateIsFinal : ({ base with fault := some .busError } : State).fault = some .busError := by decide

theorem witness_DecoderNeverCausesQueueFaults :
    Inv (withStim [.edge .clk]) ∧ (withStim [.edge .clk]).fault = none ∧
    (∃ t, step (withStim [.edge .clk]) = .next t) := ⟨withStim_inv _, rfl, ⟨_, rfl⟩⟩

theorem witness_EveryStepKeepsInvariant :
    Inv (withStim [.pass (passAt 9 none false)]) ∧ (∃ t, step (withStim [.pass (passAt 9 none false)]) = .next t) :=
  ⟨withStim_inv _, ⟨_, rfl⟩⟩

theorem witness_StatesBetweenPassesAreLegal :
    Inv (withStim []) ∧ (withStim []).fault = none ∧ (withStim []).pos = .idle := ⟨withStim_inv _, rfl, rfl⟩

theorem witness_OutputsFollowState :
    base.fault = none ∧ base.level.get .t0 = false ∧ base.pos = .idle ∧
    ({ base with level := PerTrack.const true } : State).level.get .t0 = true ∧
    ({ base with pos := .apply, gateTrk := .t3 } : State).pos ≠ .idle ∧
    ({ base with pos := .apply, gateTrk := .t3 } : State).pos ≠ .boot ∧
    nextIs (step { base with pos := .apply, gateTrk := .t3, dac := [(.t1, 7)] })
      (fun t => t.fault == none && t.pos == .idle && dacOut t == [(.t1, 7)]) = true ∧
    isCapture .rst = true ∧ (∃ t, exec .rst allPending = .next t) :=
  ⟨rfl, rfl, rfl, rfl, nofun, nofun, by decide, rfl, ⟨_, rfl⟩⟩

end Sys2Proof.Tests
end

section
/-! What SET does in a machine without fault, whichever clear time the sum gives (spec/45_gate.md R244). -/

namespace Sys2Proof.Machine

/-- Without a fault, SET completes and drives the served track's gate active. -/
theorem exec_set_running {s : State} (h : s.fault = none) : exec .set s = .next (gateOn s.gateTrk s) :=
  guarded_running h _

@[simp] theorem gateOn_level (t : Track) (s : State) : (gateOn t s).level = s.level.set t true :=
  congrArg State.level (gateOn_frame t s).2

@[simp] theorem gateOn_gateHigh (t : Track) (s : State) : (gateOn t s).gateHigh = s.gateHigh.set t true :=
  congrArg State.gateHigh (gateOn_frame t s).2

/-- Settles O32. Level and flag do not depend on the clear time, and `gateOn_frame` gives some clear time for every sum,
so one beyond 64 bits needs no argument of its own. -/
theorem setBeyondTimeRangeStillSets : Obligations.SetBeyondTimeRangeStillSets := by
  intro s hfault _hbeyond
  obtain ⟨hclear, -⟩ := gateOn_frame s.gateTrk s
  exact ⟨_, exec_set_running hfault, gateOn_level _ _, gateOn_gateHigh _ _, hclear⟩

end Sys2Proof.Machine
end

section
/-! What an instruction writes of each storage domain (spec/10_state.md R32, spec/40_capture.md R124). -/

namespace Sys2Proof.Machine

/-! ### Captures: each is its handler's effect, taken while its lines are pending -/

theorem exec_clk_eq_next {ts : Time} {s t : State} :
    exec (.clk ts) s = .next t ↔ s.fault = none ∧ s.irqPend.get .clk = true ∧ captureClk ts s = t := by
  rw [exec, execClk, guarded_eq_next, whenPending_eq_next, Host.Outcome.next.injEq]

theorem exec_rst_eq_next {s t : State} :
    exec .rst s = .next t ↔ s.fault = none ∧ s.irqPend.get .rst = true ∧ captureRst s = t := by
  rw [exec, execRst, guarded_eq_next, whenPending_eq_next, Host.Outcome.next.injEq]

theorem exec_rstclk_eq_next {ts : Time} {s t : State} :
    exec (.rstclk ts) s = .next t ↔
      s.fault = none ∧ s.irqPend.get .rst = true ∧ s.irqPend.get .clk = true ∧ captureClk ts (captureRst s) = t := by
  rw [exec, execRstclk, guarded_eq_next, whenPending_eq_next, whenPending_eq_next, Host.Outcome.next.injEq]

theorem exec_exp0_eq_next {v : Snap} {s t : State} :
    exec (.exp0 v) s = .next t ↔ s.fault = none ∧ s.irqPend.get .exp0 = true ∧ captureExp .e0 v s = t := by
  rw [exec, execExp0, guarded_eq_next, whenPending_eq_next, Host.Outcome.next.injEq]

theorem exec_exp1_eq_next {v : Snap} {s t : State} :
    exec (.exp1 v) s = .next t ↔ s.fault = none ∧ s.irqPend.get .exp1 = true ∧ captureExp .e1 v s = t := by
  rw [exec, execExp1, guarded_eq_next, whenPending_eq_next, Host.Outcome.next.injEq]

/-- A capture writes the capture domain alone. -/
theorem outsideCapture_of_exec_capture {i : Instr} {s t : State} (hi : isCapture i = true)
    (h : exec i s = .next t) : outsideCapture t = outsideCapture s := by
  cases i with
  | clk ts => obtain ⟨-, -, rfl⟩ := exec_clk_eq_next.mp h; rfl
  | rst => obtain ⟨-, -, rfl⟩ := exec_rst_eq_next.mp h; rfl
  | rstclk ts => obtain ⟨-, -, -, rfl⟩ := exec_rstclk_eq_next.mp h; rfl
  | exp0 v => obtain ⟨-, -, rfl⟩ := exec_exp0_eq_next.mp h; rfl
  | exp1 v => obtain ⟨-, -, rfl⟩ := exec_exp1_eq_next.mp h; rfl
  | _ => cases hi

/-- Two machines without fault that agree on the capture domain take the same capture. -/
theorem exec_capture_congr {i : Instr} {s s' t : State} (hi : isCapture i = true) (hf' : s'.fault = none)
    (hdom : captureDomain s = captureDomain s') (h : exec i s = .next t) :
    ∃ t', exec i s' = .next t' ∧ captureDomain t' = captureDomain t := by
  simp only [captureDomain, Prod.mk.injEq] at hdom
  obtain ⟨hclk, hts, hrst, hexpq, hirq⟩ := hdom
  cases i with
  | clk ts =>
    obtain ⟨-, hp, rfl⟩ := exec_clk_eq_next.mp h
    exact ⟨_, exec_clk_eq_next.mpr ⟨hf', hirq ▸ hp, rfl⟩, by simp [captureDomain, *]⟩
  | rst =>
    obtain ⟨-, hp, rfl⟩ := exec_rst_eq_next.mp h
    exact ⟨_, exec_rst_eq_next.mpr ⟨hf', hirq ▸ hp, rfl⟩, by simp [captureDomain, *]⟩
  | rstclk ts =>
    obtain ⟨-, hp, hp', rfl⟩ := exec_rstclk_eq_next.mp h
    exact ⟨_, exec_rstclk_eq_next.mpr ⟨hf', hirq ▸ hp, hirq ▸ hp', rfl⟩, by simp [captureDomain, *]⟩
  | exp0 v =>
    obtain ⟨-, hp, rfl⟩ := exec_exp0_eq_next.mp h
    exact ⟨_, exec_exp0_eq_next.mpr ⟨hf', hirq ▸ hp, rfl⟩, by simp [captureDomain, *]⟩
  | exp1 v =>
    obtain ⟨-, hp, rfl⟩ := exec_exp1_eq_next.mp h
    exact ⟨_, exec_exp1_eq_next.mpr ⟨hf', hirq ▸ hp, rfl⟩, by simp [captureDomain, *]⟩
  | _ => cases hi

/-! ### The other instructions -/

/-- An instruction that is no capture writes neither the capture domain nor the place of the pass agent. -/
theorem exec_frame {i : Instr} {s t : State} (hi : isCapture i = false) (h : exec i s = .next t) :
    captureDomain t = captureDomain s ∧ t.pos = s.pos := by
  cases i with
  | clk _ | rst | rstclk _ | exp0 _ | exp1 _ => cases hi
  | seed d =>
    obtain ⟨-, ⟨⟩⟩ := guarded_eq_next.mp h
    split
    · exact ⟨rfl, rfl⟩
    · dsimp only; split <;> exact ⟨rfl, rfl⟩
  | length d =>
    obtain ⟨-, ⟨⟩⟩ := guarded_eq_next.mp h
    dsimp only; split <;> exact ⟨rfl, rfl⟩
  | offset k d | steps k d =>
    obtain ⟨-, ⟨⟩⟩ := guarded_eq_next.mp h
    split <;> exact ⟨rfl, rfl⟩
  | retain =>
    obtain ⟨-, ⟨⟩⟩ := guarded_eq_next.mp h
    rw [gateOff_eq]
    split <;> exact ⟨rfl, rfl⟩
  | set =>
    obtain ⟨-, ⟨⟩⟩ := guarded_eq_next.mp h
    have heq := (gateOn_frame s.gateTrk s).2
    exact ⟨(congrArg captureDomain heq :), (congrArg State.pos heq :)⟩
  | clear =>
    obtain ⟨-, ⟨⟩⟩ := guarded_eq_next.mp h
    rw [gateOff_eq]
    exact ⟨rfl, rfl⟩
  | _ =>
    obtain ⟨-, ⟨⟩⟩ := guarded_eq_next.mp h
    exact ⟨rfl, rfl⟩

/-- No instruction moves the pass agent. -/
theorem exec_pos {i : Instr} {s t : State} (h : exec i s = .next t) : t.pos = s.pos := by
  cases hi : isCapture i with
  | false => exact (exec_frame hi h).2
  | true => exact (congrArg State.pos (outsideCapture_of_exec_capture hi h) :)

/-- Settles O14: what each kind of instruction writes, and that a capture's guards and effect read its own domain. -/
theorem instructionsKeepToTheirDomain : Obligations.InstructionsKeepToTheirDomain :=
  ⟨fun _ _ _ h => ⟨fun hi => outsideCapture_of_exec_capture hi h, fun hi => (exec_frame hi h).1⟩,
    fun _ _ _ _ hi _ hf' hdom h => exec_capture_congr hi hf' hdom h⟩

end Sys2Proof.Machine
end

section
/-! The state after power-on reset, and the machine in the fault state (spec/10_state.md R54, R59,
spec/60_exceptions.md R262). -/

namespace Sys2Proof.Machine

/-- The distance per tick fits its 32 bits (spec/10_state.md R46). -/
theorem toNat_distancePerTick (n : Nat) : (distancePerTick n).toNat = 4294967295 / n := by
  have hlt : u32Max / n < 2 ^ 32 := Nat.lt_of_le_of_lt (Nat.div_le_self _ _) (by decide)
  rw [distancePerTick, BitVec.toNat_ofNat, Nat.mod_eq_of_lt hlt, u32Max]

@[simp] theorem dptOf_get (p : Params) (t : Track) : (dptOf p).get t = distancePerTick (p.length.get t) := by
  rw [dptOf, PerTrack.get_ofFn]

@[simp] theorem reset_btn_get (c : Control) : State.reset.btn.get c = bootButton (pinMap.btn.get c) :=
  PerControl.get_ofFn _ c

/-- Settles O52, in the order of the table of R59. -/
theorem resetValues : Obligations.ResetValues := by
  have tracks : ∀ k : Track, State.reset.patterns.get k = Config.genPattern (genInput initParams) k ∧
      State.reset.table.get k = Config.genTable (genInput initParams) k ∧
      (State.reset.dpt.get k).toNat = 4294967295 / initParams.length.get k := fun k =>
    ⟨PerTrack.get_ofFn _ k, PerTrack.get_ofFn _ k, by rw [reset_dpt, dptOf_get, toNat_distancePerTick]⟩
  refine ⟨rfl, rfl, rfl, rfl, fun l => by cases l <;> rfl, rfl, rfl, initParams_legal, PerTrack.get_const _, rfl, rfl,
    rfl, PerTrack.get_const _, rfl, rfl, rfl, rfl, rfl, fun k => ?_, rfl, fun e => by cases e <;> rfl, fun c => ?_,
    rfl, rfl⟩
  · obtain ⟨hpat, htab, hdpt⟩ := tracks k
    exact ⟨hpat, htab, hdpt, PerTrack.get_const _ k, PerTrack.get_const _ k, PerTrack.get_const _ k,
      PerTrack.get_const _ k, PerTrack.get_const _ k, PerTrack.get_const _ k, PerTrack.get_const _ k,
      PerTrack.get_const _ k⟩
  · rw [reset_btn_get]
    exact ⟨PerControl.get_const _ c, rfl, rfl, rfl⟩

/-- Every instruction's meaning stands behind the fault guard. -/
theorem exec_faulted {s : State} {c : FaultCode} (hf : s.fault = some c) (i : Instr) :
    exec i s = .fault (.halted c) := by
  cases i <;> exact guarded_faulted hf _

/-- What a step in the fault state can do: nothing, power-on reset, or letting an input pass by. -/
theorem step_faulted_cases {s : State} {c : FaultCode} (hf : s.fault = some c) :
    step s = .fault (.halted c) ∨
      (∃ rest, s.stim = .powerOn :: rest ∧ step s = .next (powerOn { s with stim := rest })) ∨
      (∃ x rest, s.stim = x :: rest ∧ step s = .next { s with stim := rest }) := by
  simp only [step, hf, faultedStep]
  cases s.stim with
  | nil => exact .inl rfl
  | cons x rest =>
    cases x with
    | powerOn => exact .inr (.inl ⟨rest, rfl, rfl⟩)
    | edge l => exact .inr (.inr ⟨_, rest, rfl, rfl⟩)
    | go => exact .inr (.inr ⟨_, rest, rfl, rfl⟩)
    | preempt => exact .inr (.inr ⟨_, rest, rfl, rfl⟩)
    | boot ok => exact .inl rfl
    | capture code operand => exact .inl rfl
    | pass p => exact .inl rfl

/-- Settles O55. -/
theorem faultStateIsFinal : Obligations.FaultStateIsFinal :=
  fun _ _ hf => ⟨exec_faulted hf, step_faulted_cases hf⟩

end Sys2Proof.Machine
end

section
/-! When the DAC events of a pass are out (spec/10_state.md R31, spec/20_memory.md R82). -/

namespace Sys2Proof.Machine

theorem midPass_eq_true {p : PassPos} : midPass p = true ↔ p ≠ .idle ∧ p ≠ .boot := by
  cases p <;> simp [midPass]

theorem dacOut_of_midPass {s : State} (hf : s.fault = none) (hm : midPass s.pos = true) : dacOut s = [] := by
  simp [dacOut, hf, hm]

theorem dacOut_of_not_midPass {s : State} (hf : s.fault = none) (hm : midPass s.pos = false) : dacOut s = s.dac := by
  simp [dacOut, hf, hm]

theorem gateOut_running {s : State} (hf : s.fault = none) (k : Track) : gateOut s k = s.level.get k := by
  simp [gateOut, hf]

/-- `nextMove_frame`, for the state a known move leaves. -/
theorem nextMove_eq {s s1 : State} {m : Move} (h : nextMove s = (m, s1)) :
    ∃ st k, s1 = { s with stim := st, freeIdx := k } := by
  obtain ⟨st, k, hs⟩ := nextMove_frame s
  exact ⟨st, k, by rw [← hs, h]⟩

/-- The fetched instruction leaves the pass agent where its fetch put it. -/
theorem runRaw_pos {r : Raw} {s t : State} (h : runRaw r s = .next t) : t.pos = s.pos := by
  rcases runRaw_cases h with ⟨i, -, -, hexec⟩ | ⟨w, e, -, -, rfl⟩
  · exact exec_pos hexec
  · rfl

/-- A pass goes on after every gate command but track 3's. -/
theorem midPass_afterGate {k : Track} (hk : k ≠ .t3) : midPass (afterGate k) = true := by
  cases k with
  | t3 => exact absurd rfl hk
  | _ => rfl

theorem afterPushes_pos {s : State} (hf : (afterPushes s).fault = none) : (afterPushes s).pos = .update := by
  cases hs : s.fault with
  | none => simp [afterPushes, hs]
  | some c => simp [afterPushes, hs] at hf

/-- The pass agent's step where it fetches nothing does not end the pass. -/
theorem midPass_passLine {s : State} (hm : midPass s.pos = true) :
    (passLine s).fault = none → midPass (passLine s).pos = true := by
  unfold passLine
  cases hpos : s.pos with
  | boot => simp [hpos, midPass] at hm
  | idle => simp [hpos, midPass] at hm
  | decode => exact fun hf => by rw [decodeLine, afterPushes_pos hf]; rfl
  | apply => exact fun _ => hm
  | _ => exact fun _ => rfl

/-- An input that falls inside a pass brings no DAC event out: power-on ends the pass and drops its events. -/
theorem dacOut_of_preempt {x : Stimulus} {s t : State} (h : envStep x s = .next t) (hx : mayPreempt x = true)
    (hf : s.fault = none) (hm : midPass s.pos = true) : dacOut t = [] := by
  cases x with
  | powerOn => cases h; rfl
  | edge l =>
    cases h
    unfold lineEdge
    split <;> exact dacOut_of_midPass hf hm
  | capture code operand => cases h
  | _ => cases hx

/-- A step inside a pass leaves no DAC event out, unless it runs track 3's gate command. -/
theorem dacOut_step_midPass {s t : State} (hf : s.fault = none) (hm : midPass s.pos = true)
    (h : step s = .next t) (hft : t.fault = none) :
    dacOut t = [] ∨
      (s.gateTrk = .t3 ∧ t.pos = .idle ∧ dacOut t = t.dac ∧ ∃ s1, fetch s = some (.gcmd s.gateCmd, s1)) := by
  rcases step_cases hf h with ⟨r, s1, hfetch, hrun⟩ | ⟨x, s1, hmove, henv⟩ | ⟨s1, -, hmove, rfl⟩
  · have hpos := runRaw_pos hrun
    obtain ⟨st, k, ⟨_, _, -, -, rfl⟩ | ⟨_, _, -, -, -, rfl⟩ | ⟨rfl, -, rfl⟩⟩ := fetch_cases hfetch
    · exact .inl (dacOut_of_midPass hft (hpos ▸ hm))
    · exact .inl (dacOut_of_midPass hft (hpos ▸ hm))
    · by_cases htrk : s.gateTrk = .t3
      · have hidle : t.pos = .idle := by rw [hpos, htrk]; rfl
        exact .inr ⟨htrk, hidle, dacOut_of_not_midPass hft (by rw [hidle]; rfl), _, hfetch⟩
      · exact .inl (dacOut_of_midPass hft (hpos ▸ midPass_afterGate htrk))
  · obtain ⟨st, k, rfl⟩ := nextMove_eq hmove
    have hx : mayPreempt x = true := (nextMove_env hmove).resolve_left (by simp [hm])
    exact .inl (dacOut_of_preempt henv hx hf hm)
  · obtain ⟨st, k, rfl⟩ := nextMove_eq hmove
    exact .inl (dacOut_of_midPass hft (midPass_passLine hm hft))

/-- A capture brings no DAC event out and takes none back: the DAC output reads nothing of the capture domain. -/
theorem dacOut_exec_capture {i : Instr} {s t : State} (hi : isCapture i = true) (h : exec i s = .next t) :
    dacOut t = dacOut s :=
  (congrArg dacOut (outsideCapture_of_exec_capture hi h) :)

/-- Settles O60. -/
theorem outputsFollowState : Obligations.OutputsFollowState := by
  refine ⟨fun s k => ⟨fun hf => ⟨gateOut_running hf k, fun hp => ?_, fun hi hb => ?_, fun hl => ?_, fun hl => ?_⟩,
      Option.isSome_iff_exists, rfl⟩,
    fun s t hf hi hb => dacOut_step_midPass hf (midPass_eq_true.mpr ⟨hi, hb⟩),
    fun i s t => dacOut_exec_capture⟩
  · exact dacOut_of_not_midPass hf (by rw [hp]; rfl)
  · exact dacOut_of_midPass hf (midPass_eq_true.mpr ⟨hi, hb⟩)
  · simp [gateLineHigh, gateOut_running hf, hl]
  · simp [gateLineHigh, gateOut_running hf, hl]

end Sys2Proof.Machine
end

section
/-! The invariant (spec/70_reset_and_hazards.md R307): reset meets it, and each operation keeps it. A record
`{ h with c := _ }` of `Sound` proves the clauses the operation writes to, and takes the others from `h`. -/

namespace Sys2Proof.Machine

/-! ### Reset -/

theorem reset_sound : Sound State.reset where
  params := initParams_legal
  expq e := by cases e <;> exact Nat.zero_le _
  dSnap e := by cases e <;> exact Nat.zero_le _
  opqBound := Nat.zero_le _
  opqWords _ hw := nomatch hw
  opqEmpty _ _ := rfl
  regenDone _ := rfl
  dpt _ := dptOf_get initParams
  tph t := by simp
  clearAt t _ := by simp
  gateHigh t := by simp
  duty t := by
    have := (Config.duty t).isLt
    simp only [reset_duty, PerTrack.get_ofFn]
    omega
  gateCmd := by simp
  enabled := by simp
  noEarlyEdge _ l := by cases l <;> rfl

/-- Settles O58. -/
theorem resetMeetsInvariant : Obligations.ResetMeetsInvariant := .inr reset_sound

theorem powerOn_sound (s : State) : Sound (powerOn s) := { reset_sound with }

/-- Boot with a good configuration: reset, with the interrupts enabled and the agents started. -/
theorem boot_true_sound (s : State) : Sound (boot true s) :=
  { reset_sound with
    opqEmpty := fun _ _ => rfl
    regenDone := fun _ => rfl
    enabled := ⟨fun _ => nofun, fun _ => rfl⟩
    noEarlyEdge := nofun }

/-! ### Changes the rules share -/

/-- Taking a fault keeps the invariant: its clause on the fault asks for its absence. -/
theorem raise_sound {s : State} (h : Sound s) (c : FaultCode) : Sound (raise c s) :=
  { h with opqEmpty := nofun }

/-- Once boot is done, the pass agent may move anywhere with the queue empty and no regeneration owed. -/
theorem Sound.moveTo {s : State} (h : Sound s) (hs : s.pos ≠ .boot) (hq : s.opq = []) (hr : s.regen = false)
    {p : PassPos} (hp : p ≠ .boot) : Sound { s with pos := p } :=
  { h with
    opqEmpty := fun _ _ => hq
    regenDone := fun _ => hr
    enabled := iff_of_true (h.enabled.mpr hs) hp
    noEarlyEdge := fun hb => absurd hb hp }

/-- At line 5, legal Params may be written while a regeneration is marked (spec/42_sequencer.md R170). -/
theorem Sound.edit {s : State} (h : Sound s) (hpos : s.pos = .update) {p : Params} (hp : paramsLegal p) :
    Sound { s with params := p, regen := true } :=
  { h with params := hp, regenDone := fun hne => absurd hpos hne, dpt := nofun }

/-- Clearing a pending flag leaves no edge recorded that was not. -/
theorem Sound.clearPending {s : State} (h : Sound s) (l : Line) :
    Sound { s with irqPend := s.irqPend.set l false } :=
  { h with
    noEarlyEdge := fun hb m => by
      rw [PerLine.get_set]
      split
      · rfl
      · exact h.noEarlyEdge hb m }

/-- An edge is recorded only after boot (spec/60_exceptions.md R270). -/
theorem lineEdge_sound {s : State} (h : Sound s) (l : Line) : Sound (lineEdge l s) := by
  unfold lineEdge
  split
  next hen => exact { h with noEarlyEdge := fun hb => absurd hb (h.enabled.mp hen) }
  next => exact h

/-! ### Captures -/

theorem captureClk_sound {s : State} (h : Sound s) (ts : Time) : Sound (captureClk ts s) :=
  { h.clearPending .clk with }

theorem captureRst_sound {s : State} (h : Sound s) : Sound (captureRst s) :=
  { h.clearPending .rst with }

theorem captureExp_sound {s : State} (h : Sound s) (e : Expander) (v : Snap) : Sound (captureExp e v s) :=
  { h.clearPending (expLine e) with
    expq := fun f => by
      rw [captureExp_expq, PerExp.get_set]
      split
      · exact expPush_length_le _ _ (h.expq e)
      · exact h.expq f }

/-! ### Gate commands -/

theorem gateOff_sound {s : State} (h : Sound s) (t : Track) : Sound (gateOff t s) := by
  rw [gateOff_eq]
  exact
    { h with
      clearAt := fun k hk => by
        simp only [PerTrack.get_set] at hk ⊢
        split at hk
        next heq => rw [if_pos heq]
        next hne => rw [if_neg hne, h.clearAt k hk]
      gateHigh := fun k => by simp only [PerTrack.get_set, h.gateHigh k] }

theorem gateOn_sound {s : State} (h : Sound s) (t : Track) : Sound (gateOn t s) := by
  obtain ⟨⟨c, hc⟩, heq⟩ := gateOn_frame t s
  rw [heq, hc]
  exact
    { h with
      clearAt := fun k hk => by
        simp only [PerTrack.get_set] at hk ⊢
        split at hk
        next => cases hk
        next hne => rw [if_neg hne, h.clearAt k hk]
      gateHigh := fun k => by simp only [PerTrack.get_set, h.gateHigh k] }

/-! ### Operations -/

/-- A playhead is below its modulus, which is at most 64 for legal lengths (spec/42_sequencer.md R172). -/
theorem trackPlayhead_le (p : SyncPolicy) (gph tickCount : BitVec 32) {plen len : Nat} (hp : 2 ≤ plen)
    (hl : 2 ≤ len ∧ len ≤ 64) : trackPlayhead p gph tickCount plen len ≤ 63 := by
  have hmod : ∀ x m : Nat, 0 < m → m ≤ 64 → x % m ≤ 63 := fun x m h0 h64 => by
    have := Nat.mod_lt x h0
    omega
  cases p <;> exact hmod _ _ (by omega) (by omega)

theorem execTick_sound {n : Nat} {s t : State} (h : Sound s) (hs : execTick n s = .next t) : Sound t := by
  obtain ⟨-, ⟨⟩⟩ := guarded_eq_next.mp hs
  obtain ⟨-, hplen, -, hlen⟩ := (paramsLegal_iff _).mp h.params
  exact
    { h with
      tph := fun k => by
        rw [PerTrack.get_ofFn]
        exact trackPlayhead_le _ _ _ hplen ⟨(hlen k).1, (hlen k).2.1⟩ }

theorem execSeed_sound {d : Int} {s t : State} (h : Sound s) (hpos : s.pos = .update)
    (hs : execSeed d s = .next t) : Sound t := by
  obtain ⟨-, ⟨⟩⟩ := guarded_eq_next.mp hs
  obtain ⟨-, hrest⟩ := h.params
  split
  · exact { h.edit hpos (fateParams_legal s.freeIdx s.params h.params) with }
  · dsimp only
    split
    next hv =>
      have hseed : ((s.params.seed : Int) + d).toNat ≤ 9999 := by simp only [seedMax] at hv; omega
      have hp : paramsLegal { s.params with seed := ((s.params.seed : Int) + d).toNat } := ⟨hseed, hrest⟩
      exact { h.edit hpos hp with }
    next => exact h

theorem execLength_sound {d : Int} {s t : State} (h : Sound s) (hpos : s.pos = .update)
    (hs : execLength d s = .next t) : Sound t := by
  obtain ⟨-, ⟨⟩⟩ := guarded_eq_next.mp hs
  obtain ⟨hseed, -, -, htracks⟩ := h.params
  dsimp only
  split
  next hv =>
    have hmin : 2 ≤ ((s.params.patternLength : Int) + d).toNat := by simp only [plenMin] at hv; omega
    have hmax : ((s.params.patternLength : Int) + d).toNat ≤ 64 := by simp only [plenMax] at hv; omega
    have hp : paramsLegal { s.params with patternLength := ((s.params.patternLength : Int) + d).toNat } :=
      ⟨hseed, hmin, hmax, htracks⟩
    exact { h.edit hpos hp with }
  next => exact h

/-- An offset reduced by its track's length is legal (spec/42_sequencer.md R178). -/
theorem offsetParams_legal (k : Track) (d : Int) {p : Params} (h : paramsLegal p) :
    paramsLegal { p with offset := p.offset.set k (addMod (p.offset.get k) d (p.length.get k)) } := by
  rw [paramsLegal_iff] at h ⊢
  obtain ⟨hseed, hmin, hmax, htracks⟩ := h
  refine ⟨hseed, hmin, hmax, fun u => ?_⟩
  obtain ⟨hl, hl', hst, hoff⟩ := htracks u
  refine ⟨hl, hl', hst, ?_⟩
  rw [PerTrack.get_set]
  split
  next heq => exact heq ▸ addMod_lt _ _ _ (by omega)
  next => exact hoff

theorem execOffset_sound {k : Track} {d : Int} {s t : State} (h : Sound s) (hpos : s.pos = .update)
    (hs : execOffset k d s = .next t) : Sound t := by
  obtain ⟨-, ⟨⟩⟩ := guarded_eq_next.mp hs
  split
  · exact { h.edit hpos h.params with }
  · exact { h.edit hpos (offsetParams_legal k d h.params) with }

theorem execSteps_sound {k : Track} {d : Int} {s t : State} (h : Sound s) (hpos : s.pos = .update)
    (hs : execSteps k d s = .next t) : Sound t := by
  obtain ⟨-, ⟨⟩⟩ := guarded_eq_next.mp hs
  split
  · exact { h with }
  · exact { h.edit hpos (steppedParams_legal k d s.params h.params) with }

theorem execRetain_sound {s t : State} (h : Sound s) (hs : execRetain s = .next t) : Sound t := by
  obtain ⟨-, ⟨⟩⟩ := guarded_eq_next.mp hs
  split
  · exact gateOff_sound h _
  · exact h

/-- Every instruction keeps the invariant, the user operations at line 5, where a regeneration may be owed. -/
theorem exec_sound {i : Instr} {s t : State} (h : Sound s) (hpos : isUserOp i = true → s.pos = .update)
    (hs : exec i s = .next t) : Sound t := by
  cases i with
  | tick n => exact execTick_sound h hs
  | reset => obtain ⟨-, ⟨⟩⟩ := guarded_eq_next.mp hs; exact { h with }
  | seed d => exact execSeed_sound h (hpos rfl) hs
  | seedClick => obtain ⟨-, ⟨⟩⟩ := guarded_eq_next.mp hs; exact { h with }
  | length d => exact execLength_sound h (hpos rfl) hs
  | lengthClick => obtain ⟨-, ⟨⟩⟩ := guarded_eq_next.mp hs; exact h
  | offset k d => exact execOffset_sound h (hpos rfl) hs
  | offsetClick k => obtain ⟨-, ⟨⟩⟩ := guarded_eq_next.mp hs; exact { h with }
  | steps k d => exact execSteps_sound h (hpos rfl) hs
  | stepsClick k => obtain ⟨-, ⟨⟩⟩ := guarded_eq_next.mp hs; exact { h with }
  | retain => exact execRetain_sound h hs
  | set => obtain ⟨-, ⟨⟩⟩ := guarded_eq_next.mp hs; exact gateOn_sound h _
  | clear => obtain ⟨-, ⟨⟩⟩ := guarded_eq_next.mp hs; exact gateOff_sound h _
  | gcmdReserved => obtain ⟨-, ⟨⟩⟩ := guarded_eq_next.mp hs; exact raise_sound h _
  | clk ts => obtain ⟨-, -, rfl⟩ := exec_clk_eq_next.mp hs; exact captureClk_sound h ts
  | rst => obtain ⟨-, -, rfl⟩ := exec_rst_eq_next.mp hs; exact captureRst_sound h
  | rstclk ts => obtain ⟨-, -, -, rfl⟩ := exec_rstclk_eq_next.mp hs; exact captureClk_sound (captureRst_sound h) ts
  | exp0 v => obtain ⟨-, -, rfl⟩ := exec_exp0_eq_next.mp hs; exact captureExp_sound h .e0 v
  | exp1 v => obtain ⟨-, -, rfl⟩ := exec_exp1_eq_next.mp hs; exact captureExp_sound h .e1 v

/-! ### Fetched instructions -/

theorem isUserOp_decodeGcmd (c : BitVec 2) : isUserOp (decodeGcmd c) = false := by
  revert c; decide

/-- A capture record decodes to a capture, if to anything. -/
theorem isCapture_of_decodeCapevt {code : BitVec 8} {operand : BitVec 64} {i : Instr}
    (h : decodeCapevt code operand = .ok i) : isCapture i = true := by
  unfold decodeCapevt at h
  repeat' split at h
  all_goals cases h <;> rfl

theorem isUserOp_of_isCapture {i : Instr} (h : isCapture i = true) : isUserOp i = false := by
  cases i with
  | clk _ | rst | rstclk _ | exp0 _ | exp1 _ => rfl
  | _ => cases h

/-- A fetch keeps the invariant, and leaves the pass agent at line 5 where it fetches a user operation. -/
theorem fetch_sound {s s1 : State} {r : Raw} (h : Sound s) (hf : s.fault = none) (hfetch : fetch s = some (r, s1)) :
    Sound s1 ∧ ∀ i, decode r = .ok i → isUserOp i = true → s1.pos = .update := by
  obtain ⟨st, k, ⟨code, operand, rfl, -, rfl⟩ | ⟨w, ws, rfl, hpos, hopq, rfl⟩ | ⟨rfl, hpos, rfl⟩⟩ := fetch_cases hfetch
  · refine ⟨{ h with }, fun i hi hu => ?_⟩
    rw [isUserOp_of_isCapture (isCapture_of_decodeCapevt hi)] at hu
    cases hu
  · have hbound := h.opqBound
    have hwords := h.opqWords
    rw [hopq] at hbound hwords
    refine ⟨{ h with
      opqBound := Nat.le_of_succ_le hbound
      opqWords := fun v hv => hwords v (List.mem_cons_of_mem w hv)
      opqEmpty := fun _ hne => absurd hpos hne }, fun _ _ _ => hpos⟩
  · have hu : s.pos ≠ .update := by simp [hpos]
    have hb : s.pos ≠ .boot := by simp [hpos]
    have ha : afterGate s.gateTrk ≠ .boot := by cases s.gateTrk <;> nofun
    refine ⟨{ h.moveTo hb (h.opqEmpty hf hu) (h.regenDone hu) ha with }, fun i hi hop => ?_⟩
    cases hi
    rw [isUserOp_decodeGcmd] at hop
    cases hop

theorem runRaw_sound {r : Raw} {s t : State} (h : Sound s)
    (hpos : ∀ i, decode r = .ok i → isUserOp i = true → s.pos = .update) (hs : runRaw r s = .next t) : Sound t := by
  rcases runRaw_cases hs with ⟨i, hi, -, hexec⟩ | ⟨w, e, -, -, rfl⟩
  · exact exec_sound h (hpos i hi) hexec
  · exact raise_sound h _

/-! ### The environment's steps -/

theorem drain_sound {s : State} (h : Sound s) (dirty : Bool) : Sound (drain dirty s) := by
  have hnil : ∀ e, ((⟨[], []⟩ : PerExp (List Snap)).get e).length ≤ 64 := fun e => by cases e <;> exact Nat.zero_le _
  cases dirty with
  | false => rw [drain_false]; exact { h with dSnap := hnil }
  | true => rw [drain_true]; exact { h with dSnap := h.expq, expq := hnil }

/-- A pass starts between passes, with the queue empty and no regeneration owed. -/
theorem beginPass_sound {p : PassInput} {s t : State} (h : Sound s) (hf : s.fault = none) (hpos : s.pos = .idle)
    (hs : beginPass p s = .next t) : Sound t := by
  have hu : s.pos ≠ .update := by simp [hpos]
  have hb : s.pos ≠ .boot := by simp [hpos]
  have hd := drain_sound h (dirtyAnswer p s)
  have hkeep : (drain (dirtyAnswer p s) s).pos = s.pos ∧ (drain (dirtyAnswer p s) s).opq = s.opq ∧
      (drain (dirtyAnswer p s) s).regen = s.regen := by
    cases dirtyAnswer p s <;> exact ⟨rfl, rfl, rfl⟩
  obtain ⟨hp, hq, hr⟩ := hkeep
  have hin : Sound (passInputs p (drain (dirtyAnswer p s) s)) :=
    { hd with regenDone := fun _ => rfl, dpt := fun _ => hd.dpt (hr.trans (h.regenDone hu)) }
  unfold beginPass at hs
  dsimp only at hs
  split at hs
  · cases hs
  · cases hs
    split
    · exact raise_sound hin _
    · exact hin.moveTo (hp ▸ hb) (hq.trans (h.opqEmpty hf hu)) rfl nofun

/-- The environment's inputs keep the invariant; a boot that fails leaves its other disjunct. -/
theorem envStep_inv {x : Stimulus} {s t : State} (h : Sound s) (hf : s.fault = none)
    (hx : midPass s.pos = false ∨ mayPreempt x = true) (hs : envStep x s = .next t) : Inv t := by
  cases x with
  | powerOn => cases hs; exact .inr (powerOn_sound s)
  | boot ok =>
    simp only [envStep] at hs
    split at hs
    · cases hs
      cases ok with
      | true => exact .inr (boot_true_sound s)
      | false => exact .inl rfl
    · cases hs
  | edge l => cases hs; exact .inr (lineEdge_sound h l)
  | capture code operand => cases hs
  | pass p =>
    simp only [envStep] at hs
    split at hs
    · cases hs
    next hb =>
      have hm : midPass s.pos = false := hx.resolve_right nofun
      have hidle : s.pos = .idle := by
        by_contra hne
        rw [midPass_eq_true.mpr ⟨hne, hb⟩] at hm
        cases hm
      exact .inr (beginPass_sound h hf hidle hs)
  | go => cases hs; exact .inr h
  | preempt => cases hs; exact .inr h

/-! ### The lines of a pass -/

theorem emitIf_length_le (b : Bool) (i : Instr) : (emitIf b i).length ≤ 1 := by
  cases b <;> simp [emitIf]

theorem emitTrack_length_le (d : Decoded) (t : Track) : (emitTrack d t).length ≤ 4 := by
  have h1 := emitIf_length_le (d.raw.offset.get t ≠ 0) (.offset t (d.raw.offset.get t))
  have h2 := emitIf_length_le (d.click.offset.get t) (.offsetClick t)
  have h3 := emitIf_length_le (d.raw.steps.get t ≠ 0) (.steps t (d.raw.steps.get t))
  have h4 := emitIf_length_le (d.click.steps.get t) (.stepsClick t)
  simp only [emitTrack, List.length_append]
  omega

/-- A pass emits at most 22 words: six, and four for each track (spec/41_decode.md R156, R157). -/
theorem emitWords_length_le (dRst dClk : Bool) (d : Decoded) : (emitWords dRst dClk d).length ≤ 22 := by
  have h1 := emitIf_length_le dRst .reset
  have h2 := emitIf_length_le dClk (.tick d.interval)
  have h3 := emitIf_length_le (d.dSeed ≠ 0) (.seed d.dSeed)
  have h4 := emitIf_length_le d.click.seed .seedClick
  have h5 := emitIf_length_le (d.raw.length ≠ 0) (.length d.raw.length)
  have h6 := emitIf_length_le d.click.length .lengthClick
  have t0 := emitTrack_length_le d .t0
  have t1 := emitTrack_length_le d .t1
  have t2 := emitTrack_length_le d .t2
  have t3 := emitTrack_length_le d .t3
  simp only [emitWords, Track.all, List.flatMap_cons, List.flatMap_nil, List.length_append, List.length_nil]
  omega

/-- The decoder's words are well formed: each is the encoder's. -/
theorem wordWellFormed_of_mem_emitIf {b : Bool} {i : Instr} {w : OpWord} (hw : w ∈ emitIf b i) :
    wordWellFormed w = true := by
  cases b with
  | false => cases hw
  | true =>
    rw [emitIf, if_pos rfl, List.mem_singleton] at hw
    subst hw
    unfold opWordOf
    split
    next w' he => exact wordWellFormed_opWordOf i w' he
    all_goals decide

theorem wordWellFormed_of_mem_emitWords {dRst dClk : Bool} {d : Decoded} {w : OpWord}
    (hw : w ∈ emitWords dRst dClk d) : wordWellFormed w = true := by
  simp only [emitWords, emitTrack, List.mem_append, List.mem_flatMap] at hw
  rcases hw with (((((hw | hw) | hw) | hw) | hw) | hw) | ⟨k, -, ((hw | hw) | hw) | hw⟩ <;>
    exact wordWellFormed_of_mem_emitIf hw

/-- Lines 3 and 4 queue at most 22 well-formed words. -/
theorem decodeLine_sound {s : State} (h : Sound s) (hf : s.fault = none) (hpos : s.pos = .decode) :
    Sound (decodeLine s) := by
  have hu : s.pos ≠ .update := by simp [hpos]
  have hb : s.pos ≠ .boot := by simp [hpos]
  have hq : s.opq = [] := h.opqEmpty hf hu
  have hlen : (decodeInputs s).2.length ≤ 22 := emitWords_length_le _ _ _
  have hdec : Sound (decodeInputs s).1 := { h with }
  rw [decodeLine_of_fits hf (by rw [hq, List.length_nil]; omega), hq, List.nil_append]
  exact
    { hdec with
      opqBound := le_trans hlen (by decide)
      opqWords := fun w hw => wordWellFormed_of_mem_emitWords hw
      opqEmpty := fun _ hne => absurd rfl hne
      regenDone := fun hne => absurd rfl hne
      enabled := iff_of_true (h.enabled.mpr hb) nofun
      noEarlyEdge := nofun }

/-- The end of `Update` pays the regeneration that is owed (spec/42_sequencer.md R170, R190). -/
theorem updateEnd_sound {s : State} (h : Sound s) (hpos : s.pos = .update) (hq : s.opq = []) :
    Sound (updateEnd s) := by
  have hb : s.pos ≠ .boot := by simp [hpos]
  have hpaid : Sound { (if s.regen then regenerate s else s) with regen := false } := by
    split
    next => exact { h with regenDone := fun _ => rfl, dpt := fun _ => dptOf_get s.params }
    next hr => exact { h with regenDone := fun _ => rfl, dpt := fun _ => h.dpt (Bool.eq_false_iff.mpr hr) }
  have htime := hpaid.moveTo (p := .time) (by cases s.regen <;> exact hb) (by cases s.regen <;> exact hq) rfl nofun
  unfold updateEnd
  cases s.acted <;> exact { htime with }

/-- The loop of line 7 writes the last outputs and the event list alone. -/
theorem foldl_lfoSetOffset_frame (ts : List Track) (s : State) :
    ∃ o d, ts.foldl (fun s t => lfoSetOffset t (s.phase.get t) s) s = { s with lastOut := o, dac := d } := by
  induction ts generalizing s with
  | nil => exact ⟨_, _, rfl⟩
  | cons t ts ih =>
    obtain ⟨o, d, hod⟩ := ih (lfoSetOffset t (s.phase.get t) s)
    exact ⟨o, d, by rw [List.foldl_cons, hod, lfoSetOffset_frame]⟩

theorem lfoLine_frame (s : State) : ∃ o d, lfoLine s = { s with lastOut := o, dac := d, pos := .gate .t0 } := by
  obtain ⟨o, d, hod⟩ := foldl_lfoSetOffset_frame Track.all s
  exact ⟨o, d, by rw [lfoLine, hod]⟩

/-- The reserved command is never selected (spec/45_gate.md R247). -/
theorem selectedCmd_ne_reserved (t : Track) (s : State) : selectedCmd t s ≠ 0b11 := by
  unfold selectedCmd
  repeat' split
  all_goals decide

/-- The pass agent's lines keep the invariant, the end of `Update` with the operation queue empty. -/
theorem passLine_sound {s : State} (h : Sound s) (hf : s.fault = none) (hempty : s.pos = .update → s.opq = []) :
    Sound (passLine s) := by
  have hmove : ∀ p, s.pos ≠ .boot → s.pos ≠ .update → p ≠ .boot → Sound { s with pos := p } :=
    fun p hb hu hp => h.moveTo hb (h.opqEmpty hf hu) (h.regenDone hu) hp
  unfold passLine
  cases hpos : s.pos with
  | boot => exact h
  | idle => exact h
  | apply => exact h
  | decode => exact decodeLine_sound h hf hpos
  | update => exact updateEnd_sound h hpos (hempty hpos)
  | time => exact { hmove .lfo (by simp [hpos]) (by simp [hpos]) nofun with }
  | lfo =>
    obtain ⟨o, d, hod⟩ := lfoLine_frame s
    dsimp only
    rw [hod]
    exact { hmove (.gate .t0) (by simp [hpos]) (by simp [hpos]) nofun with }
  | gate t =>
    exact
      { hmove .apply (by simp [hpos]) (by simp [hpos]) nofun with
        gateCmd := selectedCmd_ne_reserved t s }

/-- At line 5 a step fetches nothing only from an empty queue. -/
theorem opq_nil_of_fetch_none {s s1 : State} (hfetch : fetch s = none) (hmove : nextMove s = (.pass, s1))
    (hpos : s1.pos = .update) : s1.opq = [] := by
  cases hq : s1.opq with
  | nil => rfl
  | cons w ws => simp [fetch, hmove, hpos, hq] at hfetch

/-! ### Every step -/

theorem step_running_inv {s t : State} (h : Sound s) (hf : s.fault = none) (hstep : step s = .next t) : Inv t := by
  rcases step_cases hf hstep with ⟨r, s1, hfetch, hrun⟩ | ⟨x, s1, hmove, henv⟩ | ⟨s1, hfetch, hmove, rfl⟩
  · obtain ⟨h1, hpos⟩ := fetch_sound h hf hfetch
    exact .inr (runRaw_sound h1 hpos hrun)
  · have hx := nextMove_env hmove
    obtain ⟨st, k, rfl⟩ := nextMove_eq hmove
    have h1 : Sound { s with stim := st, freeIdx := k } := { h with }
    exact envStep_inv h1 hf hx henv
  · have hempty := opq_nil_of_fetch_none hfetch hmove
    obtain ⟨st, k, rfl⟩ := nextMove_eq hmove
    have h1 : Sound { s with stim := st, freeIdx := k } := { h with }
    exact .inr (passLine_sound h1 hf hempty)

/-- In the fault state only power-on changes anything that the invariant speaks of. -/
theorem step_faulted_inv {s t : State} {c : FaultCode} (h : Inv s) (hf : s.fault = some c)
    (hstep : step s = .next t) : Inv t := by
  rcases step_faulted_cases hf with hs | ⟨rest, -, hs⟩ | ⟨x, rest, -, hs⟩
  · rw [hs] at hstep
    cases hstep
  · rw [hs] at hstep
    cases hstep
    exact .inr (powerOn_sound _)
  · rw [hs] at hstep
    cases hstep
    exact h.imp id fun hsound => { hsound with }

/-- Settles O57, by whether the machine is in the fault state. -/
theorem everyStepKeepsInvariant : Obligations.EveryStepKeepsInvariant := by
  intro s t hinv hstep
  cases hf : s.fault with
  | none => exact step_running_inv (hinv.resolve_left (by rw [hf]; nofun)) hf hstep
  | some c => exact step_faulted_inv hinv hf hstep

end Sys2Proof.Machine
end

section
/-! The two kinds of bounded queue when they are full: an expander queue drops its oldest entry, the operation queue
faults (spec/20_memory.md R75, R76). -/

namespace Sys2Proof.Machine

/-! ### Expander queues -/

/-- The handler of an expander's line, on a queue within capacity: the queue keeps the newest 64 snapshots. -/
theorem captureExp_eq_newest (e : Expander) (v : Snap) (s : State) (h : (s.expq.get e).length ≤ 64) :
    captureExp e v s =
      { s with
        irqPend := s.irqPend.set (expLine e) false
        expq := s.expq.set e ((s.expq.get e ++ [v]).drop ((s.expq.get e).length + 1 - 64)) } := by
  rw [captureExp, expPush_eq_newest _ v h]

/-- Settles O11: each capture is its handler's effect on its own queue, where `expPush` keeps the newest 64. -/
theorem expanderCaptureKeepsNewest64 : Obligations.ExpanderCaptureKeepsNewest64 := by
  constructor
  · intro v s hfault hpend hcap
    exact exec_exp0_eq_next.mpr ⟨hfault, hpend, captureExp_eq_newest .e0 v s hcap⟩
  · intro v s hfault hpend hcap
    exact exec_exp1_eq_next.mpr ⟨hfault, hpend, captureExp_eq_newest .e1 v s hcap⟩

/-! ### The operation queue -/

/-- The first word that meets a full queue raises the fault; neither it nor a later word is pushed. -/
theorem pushAll_cons_of_full (w : OpWord) (ws : List OpWord) {s : State} (h : opqCap ≤ s.opq.length) :
    pushAll (w :: ws) s = raise .opqOverflow s := by
  rw [pushAll, if_pos h]

/-- Settles O49: 64 words fill the queue. -/
theorem fullQueuePushFaults : Obligations.FullQueuePushFaults :=
  fun w ws _ hlen => pushAll_cons_of_full w ws (le_of_eq hlen.symm)

end Sys2Proof.Machine
end

section
/-! The encoder and the decoder are inverse to each other on well-formed instructions and on the bits that decode
(spec/30_encoding.md R90 to R97). -/

namespace Sys2Proof

/-! ### Operands in their fields -/

theorem deltaFits_iff {d : Int} : deltaFits d = true ↔ -2 ^ 31 ≤ d ∧ d < 2 ^ 31 := by
  rw [deltaFits, Bool.and_eq_true, decide_eq_true_eq, decide_eq_true_eq]

theorem toInt_ofInt_of_deltaFits {d : Int} (h : deltaFits d = true) : (BitVec.ofInt 32 d).toInt = d := by
  obtain ⟨hlo, hhi⟩ := deltaFits_iff.mp h
  exact BitVec.toInt_ofInt_eq_self (by decide) hlo hhi

theorem deltaFits_toInt (p : BitVec 32) : deltaFits p.toInt = true :=
  deltaFits_iff.mpr ⟨p.le_toInt, p.toInt_lt⟩

theorem toNat_ofNat_of_intervalFits {n : Nat} (h : intervalFits n = true) : (BitVec.ofNat 32 n).toNat = n := by
  rw [BitVec.toNat_ofNat, Nat.mod_eq_of_lt (of_decide_eq_true h)]

theorem intervalFits_toNat (p : BitVec 32) : intervalFits p.toNat = true := decide_eq_true p.isLt

/-! ### From an instruction to bits and back -/

/-- The encoder's words meet R94, so the opcode alone selects what they decode to. -/
theorem decode_encode_of_opw {i : Instr} {w : OpWord} (h : encode i = .opw w) :
    decode (encode i) = operationOf w := by
  rw [h]
  exact decodeOpw_of_wellFormed (wordWellFormed_opWordOf i w h)

/-- Settles O1. The fields of `opWord` read back what was written into them, and a well-formed operand survives the
width of its field. -/
theorem encodedInstructionDecodesBack : Obligations.EncodedInstructionDecodesBack := by
  intro i hwf
  cases i with
  | tick n =>
    refine Eq.trans (decode_encode_of_opw rfl) ?_
    simp [operationOf, toNat_ofNat_of_intervalFits hwf]
  | seed d | length d | offset t d | steps t d =>
    refine Eq.trans (decode_encode_of_opw rfl) ?_
    simp [operationOf, toInt_ofInt_of_deltaFits hwf]
  | offsetClick t | stepsClick t =>
    refine Eq.trans (decode_encode_of_opw rfl) ?_
    simp [operationOf]
  | exp0 v | exp1 v =>
    have hfits : v.toNat % 2 ^ 64 < 2 ^ 16 := by have := v.isLt; omega
    simpa [encode, decode, decodeCapevt] using hfits
  | _ => rfl

/-! ### From bits to an instruction and back -/

/-- The four conditions of R94, on the fields. -/
theorem wordWellFormed_iff (w : OpWord) :
    wordWellFormed w = true ↔
      (opcField w).toNat ≤ 9 ∧ rsvField w = 0 ∧ ((opcField w).toNat ≤ 5 → trkField w = 0) ∧
        ((opcField w).toNat ∈ [1, 3, 5, 7, 9] → payField w = 0) := by
  have htrk : 6 ≤ (opcField w).toNat ↔ ¬ (opcField w).toNat ≤ 5 := by omega
  simp only [wordWellFormed, Bool.and_eq_true, Bool.or_eq_true, Bool.not_eq_true', decide_eq_true_eq, htrk,
    ← Bool.not_eq_true, List.contains_iff_mem, ← imp_iff_not_or, and_assoc]

/-- The operation that fields select is encoded as those fields, where R94 asks 0 of the fields the operation does not
have. -/
theorem encode_of_operationOf_opWord {o : BitVec 4} {t : BitVec 2} {p : BitVec 32} {i : Instr}
    (htrk : o.toNat ≤ 5 → t = 0) (hpay : o.toNat ∈ [1, 3, 5, 7, 9] → p = 0)
    (h : operationOf (opWord o t p) = .ok i) : encode i = .opw (opWord o t p) ∧ i.wellFormed = true := by
  simp only [operationOf, opcField_opWord, trkField_opWord, payField_opWord] at h
  split at h
  case h_1 hop =>
    cases h
    obtain ⟨-, rfl⟩ := BitVec.toNat_eq_nat.mp hop
    obtain rfl := htrk (by decide)
    rw [encode, BitVec.ofNat_toNat, BitVec.setWidth_eq]
    exact ⟨rfl, intervalFits_toNat p⟩
  case h_2 hop | h_4 hop | h_6 hop =>
    cases h
    obtain ⟨-, rfl⟩ := BitVec.toNat_eq_nat.mp hop
    obtain rfl := htrk (by decide)
    obtain rfl := hpay (by decide)
    exact ⟨rfl, rfl⟩
  case h_3 hop | h_5 hop =>
    cases h
    obtain ⟨-, rfl⟩ := BitVec.toNat_eq_nat.mp hop
    obtain rfl := htrk (by decide)
    rw [encode, BitVec.ofInt_toInt]
    exact ⟨rfl, deltaFits_toInt p⟩
  case h_7 hop | h_9 hop =>
    cases h
    obtain ⟨-, rfl⟩ := BitVec.toNat_eq_nat.mp hop
    rw [encode, BitVec.ofInt_toInt, Track.bits_ofBits]
    exact ⟨rfl, deltaFits_toInt p⟩
  case h_8 hop | h_10 hop =>
    cases h
    obtain ⟨-, rfl⟩ := BitVec.toNat_eq_nat.mp hop
    obtain rfl := hpay (by decide)
    rw [encode, Track.bits_ofBits]
    exact ⟨rfl, rfl⟩
  case h_11 => cases h

theorem wordWellFormed_of_decodeOpw {w : OpWord} {i : Instr} (h : decodeOpw w = .ok i) : wordWellFormed w = true := by
  by_contra hw
  obtain ⟨e, he⟩ := decodeOpw_of_not_wellFormed (Bool.eq_false_of_not_eq_true hw)
  cases he.symm.trans h

theorem encode_of_decodeOpw {w : OpWord} {i : Instr} (h : decodeOpw w = .ok i) :
    encode i = .opw w ∧ i.wellFormed = true := by
  have hw := wordWellFormed_of_decodeOpw h
  obtain ⟨-, hrsv, htrk, hpay⟩ := (wordWellFormed_iff w).mp hw
  rw [decodeOpw_of_wellFormed hw, ← opWord_fields w hrsv] at h
  rw [← opWord_fields w hrsv]
  exact encode_of_operationOf_opWord htrk hpay h

theorem encode_decodeGcmd (c : BitVec 2) : encode (decodeGcmd c) = .gcmd c ∧ (decodeGcmd c).wellFormed = true := by
  revert c
  decide

/-- An operand that is a snapshot loses nothing by being read in 16 bits. -/
theorem setWidth_snap_of_lt {operand : BitVec 64} (h : operand.toNat < 2 ^ 16) :
    (operand.setWidth 16).setWidth 64 = operand := by
  apply BitVec.eq_of_toNat_eq
  simp only [BitVec.toNat_setWidth]
  omega

/-- This is where the refusal of a stray operand (log entry 19) counts: what the event does not hold is 0. -/
theorem encode_of_decodeCapevt {code : BitVec 8} {operand : BitVec 64} {i : Instr}
    (h : decodeCapevt code operand = .ok i) : encode i = .capevt code operand ∧ i.wellFormed = true := by
  unfold decodeCapevt at h
  split at h
  case h_1 hc | h_3 hc =>
    obtain ⟨-, rfl⟩ := BitVec.toNat_eq_nat.mp hc
    cases h
    exact ⟨rfl, rfl⟩
  case h_2 hc =>
    obtain ⟨-, rfl⟩ := BitVec.toNat_eq_nat.mp hc
    split at h
    case isTrue hz =>
      cases h
      exact ⟨by rw [hz]; rfl, rfl⟩
    case isFalse => cases h
  case h_4 hc | h_5 hc =>
    obtain ⟨-, rfl⟩ := BitVec.toNat_eq_nat.mp hc
    split at h
    case isTrue hlt =>
      cases h
      rw [encode, setWidth_snap_of_lt hlt]
      exact ⟨rfl, rfl⟩
    case isFalse => cases h
  case h_6 => cases h

/-- Settles O2, format by format. -/
theorem decodedBitsEncodeBack : Obligations.DecodedBitsEncodeBack := by
  intro r i h
  cases r with
  | opw w => exact encode_of_decodeOpw h
  | gcmd c =>
    cases h
    exact encode_decodeGcmd c
  | capevt code operand => exact encode_of_decodeCapevt h

end Sys2Proof
end

section
/-! An operation word as arithmetic on its fields (spec/30_encoding.md R90, R93, R94). -/

namespace Sys2Proof

/-! ### Reading a field -/

theorem toNat_opcField (w : OpWord) : (opcField w).toNat = w.toNat % 16 := by
  simp [opcField]

theorem toNat_trkField (w : OpWord) : (trkField w).toNat = w.toNat / 16 % 4 := by
  simp [trkField, Nat.shiftRight_eq_div_pow]

theorem toNat_rsvField (w : OpWord) : (rsvField w).toNat = w.toNat / 64 % 2 ^ 26 := by
  simp [rsvField, Nat.shiftRight_eq_div_pow]

theorem toNat_payField (w : OpWord) : (payField w).toNat = w.toNat / 2 ^ 32 := by
  have htop : w.toNat / 2 ^ 32 < 2 ^ 32 := by have := w.isLt; omega
  rw [payField, BitVec.extractLsb'_toNat, Nat.shiftRight_eq_div_pow, Nat.mod_eq_of_lt htop]

/-- Settles O3. A word decodes where `wordWellFormed` holds, and each of its conditions reads a field. -/
theorem queueWordDecodesIffWellFormed : Obligations.QueueWordDecodesIffWellFormed := by
  intro w
  have hdec : (∃ i, decode (.opw w) = .ok i) ↔ wordWellFormed w = true :=
    ⟨fun ⟨_, hi⟩ => wordWellFormed_of_decodeOpw hi, decodeOpw_ok⟩
  rw [hdec, wordWellFormed_iff]
  have hrsv : rsvField w = 0 ↔ w.toNat / 64 % 2 ^ 26 = 0 := by rw [← toNat_rsvField]; exact BitVec.toNat_inj.symm
  have htrk : trkField w = 0 ↔ w.toNat / 16 % 4 = 0 := by rw [← toNat_trkField]; exact BitVec.toNat_inj.symm
  have hpay : payField w = 0 ↔ w.toNat / 2 ^ 32 = 0 := by rw [← toNat_payField]; exact BitVec.toNat_inj.symm
  rw [toNat_opcField, hrsv, htrk, hpay]

/-! ### Writing the fields -/

/-- A word is the sum of its fields, each at its place (R90). -/
theorem toNat_eq_fields (w : OpWord) :
    w.toNat = (payField w).toNat * 2 ^ 32 + (rsvField w).toNat * 64 + (trkField w).toNat * 16 + (opcField w).toNat := by
  rw [toNat_payField, toNat_rsvField, toNat_trkField, toNat_opcField]
  omega

theorem toNat_opWord (o : BitVec 4) (t : BitVec 2) (p : BitVec 32) :
    (opWord o t p).toNat = p.toNat * 2 ^ 32 + t.toNat * 16 + o.toNat := by
  rw [toNat_eq_fields, payField_opWord, rsvField_opWord, trkField_opWord, opcField_opWord]
  simp

/-- `Enc` of an interval (R93). -/
theorem opWord_ofNat (o : BitVec 4) (t : BitVec 2) {n : Nat} (hn : n < 2 ^ 32) :
    opWord o t (BitVec.ofNat 32 n) = BitVec.ofNat 64 (n * 2 ^ 32 + t.toNat * 16 + o.toNat) := by
  have ht := t.isLt
  have ho := o.isLt
  apply BitVec.eq_of_toNat_eq
  rw [toNat_opWord, BitVec.toNat_ofNat, BitVec.toNat_ofNat, Nat.mod_eq_of_lt hn, Nat.mod_eq_of_lt (by omega)]

/-- `Enc` of a delta (R93), which is written as its remainder modulo `2^32`, its two's complement. -/
theorem opWord_ofInt (o : BitVec 4) (t : BitVec 2) (d : Int) :
    opWord o t (BitVec.ofInt 32 d) = BitVec.ofInt 64 (d % 2 ^ 32 * 2 ^ 32 + t.toNat * 16 + o.toNat) := by
  have ht := t.isLt
  have ho := o.isLt
  apply BitVec.eq_of_toNat_eq
  rw [toNat_opWord, BitVec.toNat_ofInt, BitVec.toNat_ofInt]
  omega

/-- Settles O4. `opWord_ofNat` and `opWord_ofInt` at each opcode; the examples are closed words. -/
theorem encoderLaysOutFields : Obligations.EncoderLaysOutFields := by
  refine ⟨fun n d t hn => ⟨?tick, rfl, ?seed, rfl, ?length, rfl, ?offset, ?offsetClick, ?steps, ?stepsClick⟩,
    by decide⟩
  case tick => simpa [encode] using opWord_ofNat 0 0 hn
  case seed => simpa [encode] using opWord_ofInt 2 0 d
  case length => simpa [encode] using opWord_ofInt 4 0 d
  case offset => exact congrArg Raw.opw (opWord_ofInt 6 t.bits d)
  case offsetClick => simpa [encode] using opWord_ofNat 7 t.bits (n := 0) (by decide)
  case steps => exact congrArg Raw.opw (opWord_ofInt 8 t.bits d)
  case stepsClick => simpa [encode] using opWord_ofNat 9 t.bits (n := 0) (by decide)

/-- Settles O5: the words are closed, so the decoder is evaluated on each. -/
theorem writtenOutWordsDecode : Obligations.WrittenOutWordsDecode := by
  unfold Obligations.WrittenOutWordsDecode
  decide

end Sys2Proof
end

section
/-! The codes of the control fields (spec/30_encoding.md R99, R100, R101). -/

namespace Sys2Proof.Machine

/-! ### Each value is the meaning of its code -/

@[simp] theorem modeOfCode_modeCode (m : Mode) : modeOfCode (modeCode m) = some m := by
  cases m with
  | run | seed | fate | length => rfl
  | offset t | lfo t | steps t | trackSync t => cases t <;> rfl

@[simp] theorem syncOfCode_syncCode (p : SyncPolicy) : syncOfCode (syncCode p) = some p := by cases p <;> rfl

@[simp] theorem lfoOfCode_lfoCode (m : LfoMode) : lfoOfCode (lfoCode m) = some m := by cases m <;> rfl

/-! ### The reserved codes -/

theorem modeOfCode_eq_none : ∀ c : BitVec 5, modeOfCode c = none ↔ c.toNat < 16 ∧ c.toNat % 4 ≠ 0 := by decide

theorem syncOfCode_eq_none : ∀ c : BitVec 2, syncOfCode c = none ↔ c = 3 := by decide

theorem lfoOfCode_eq_none : ∀ c : BitVec 4, lfoOfCode c = none ↔ 12 ≤ c.toNat := by decide

/-! ### Cycling -/

theorem syncCode_getD : ∀ c : BitVec 2, c.toNat < 3 → syncCode ((syncOfCode c).getD .sync) = c := by decide

theorem lfoCode_getD : ∀ c : BitVec 4, c.toNat < 12 → lfoCode ((lfoOfCode c).getD .random) = c := by decide

/-- A Euclidean remainder is a code when the codes reach the modulus. -/
theorem toNat_ofInt_emod {w : Nat} (x : Int) {m : Int} (hm : 0 < m) (hw : m ≤ 2 ^ w) :
    ((BitVec.ofInt w (x % m)).toNat : Int) = x % m := by
  have hlo := Int.emod_nonneg x hm.ne'
  have hhi := Int.emod_lt_of_pos x hm
  rw [BitVec.toNat_ofInt, Int.emod_eq_of_lt hlo (by push_cast; omega), Int.toNat_of_nonneg hlo]

theorem syncCode_cycleSync (p : SyncPolicy) (d : Int) :
    ((syncCode (cycleSync p d)).toNat : Int) = ((syncCode p).toNat + d) % 3 := by
  have hcode := toNat_ofInt_emod (w := 2) ((syncCode p).toNat + d) (m := 3) (by decide) (by decide)
  rw [cycleSync, syncCode_getD _ (by omega), hcode]

theorem lfoCode_cycleLfo (m : LfoMode) (d : Int) :
    ((lfoCode (cycleLfo m d)).toNat : Int) = ((lfoCode m).toNat + d) % 12 := by
  have hcode := toNat_ofInt_emod (w := 4) ((lfoCode m).toNat + d) (m := 12) (by decide) (by decide)
  rw [cycleLfo, lfoCode_getD _ (by omega), hcode]

/-- Settles O6. The tables are closed; cycling lands on a code in use, which its value reads back. -/
theorem controlCodesAndCycling : Obligations.ControlCodesAndCycling :=
  ⟨rfl, rfl, rfl, rfl, modeOfCode_modeCode, modeOfCode_eq_none, syncOfCode_syncCode, syncOfCode_eq_none,
    lfoOfCode_lfoCode, lfoOfCode_eq_none, syncCode_cycleSync, lfoCode_cycleLfo⟩

end Sys2Proof.Machine
end

section
/-! Where the next step fetches, and what it does with bits that decode to nothing (spec/30_encoding.md R94, R97,
spec/42_sequencer.md R170). -/

namespace Sys2Proof.Machine

theorem step_of_fetch {s s1 : State} {r : Raw} (hf : s.fault = none) (h : fetch s = some (r, s1)) :
    step s = runRaw r s1 := by
  rw [step, hf]
  simp only [runningStep, h]

/-- Line 5 takes the oldest word, where no input is queued. -/
theorem fetch_update {s : State} {w : OpWord} {ws : List OpWord} (hpos : s.pos = .update) (hstim : s.stim = [])
    (hopq : s.opq = w :: ws) : fetch s = some (.opw w, { s with opq := ws }) := by
  have hmove : nextMove s = (.pass, s) := by simp [nextMove, hpos, midPass, hstim]
  simp [fetch, hmove, hpos, hopq]

/-- Between passes the next input is the environment's, and a capture is fetched. -/
theorem fetch_capture {s : State} {code : BitVec 8} {operand : BitVec 64} {rest : List Stimulus}
    (hpos : s.pos = .idle) (hstim : s.stim = .capture code operand :: rest) :
    fetch s = some (.capevt code operand, { s with stim := rest }) := by
  have hmove : nextMove s = (.env (.capture code operand), { s with stim := rest }) := by
    simp [nextMove, hpos, midPass, hstim]
  simp [fetch, hmove, hpos]

theorem runRaw_opw_of_not_ok {w : OpWord} (s : State) (h : ∀ i, decode (.opw w) ≠ .ok i) :
    runRaw (.opw w) s = .next (raise .reservedOp s) := by
  unfold runRaw
  split
  case h_1 i hi => exact absurd hi (h i)
  case h_2 => rfl

theorem decodeCapevt_reserved {code : BitVec 8} (h : 5 ≤ code.toNat) (operand : BitVec 64) :
    decodeCapevt code operand = .error .reservedEvent := by
  unfold decodeCapevt
  split
  case h_6 => rfl
  all_goals omega

/-- Settles O9: what is fetched, and what running it answers. -/
theorem undecodableBitsRaiseOrAreRefused : Obligations.UndecodableBitsRaiseOrAreRefused := by
  constructor
  · intro s w ws hf hpos hstim hopq hw
    rw [step_of_fetch hf (fetch_update hpos hstim hopq), runRaw_opw_of_not_ok _ hw]
    rfl
  · intro s code operand rest hf hpos hstim hcode
    rw [step_of_fetch hf (fetch_capture hpos hstim), runRaw, decode, decodeCapevt_reserved hcode]

end Sys2Proof.Machine
end

section
/-! One sample of an encoder, and what a detent answers (spec/41_decode.md R146 to R150). -/

namespace Sys2Proof.Machine

theorem qstep_nib (e : Encoder) (pair : BitVec 2) : (qstep e pair).1.nib = e.nib.extractLsb' 0 2 ++ pair := by
  unfold qstep
  dsimp only
  split <;> rfl

/-- A sample that is no step leaves the register alone (R147). -/
theorem qstep_of_qtab_eq_zero {e : Encoder} {pair : BitVec 2} (h : qtab (qstep e pair).1.nib = 0) :
    (qstep e pair).1.roll = e.roll ∧ (qstep e pair).2 = 0 := by
  rw [qstep_nib] at h
  simp [qstep, h]

/-- A step appends its nibble to the register, and the register alone decides the answer (R147, R149). -/
theorem qstep_of_qtab_ne_zero {e : Encoder} {pair : BitVec 2} (h : qtab (qstep e pair).1.nib ≠ 0) :
    (qstep e pair).1.roll = e.roll.extractLsb' 0 4 ++ (qstep e pair).1.nib ∧
      (qstep e pair).2 =
        if (qstep e pair).1.roll = sentinelUp then 1 else if (qstep e pair).1.roll = sentinelDown then -1 else 0 := by
  rw [qstep_nib] at h
  simp [qstep, h]

theorem toNat_append_extractLsb' {v w : Nat} (n : Nat) (x : BitVec v) (y : BitVec w) :
    (x.extractLsb' 0 n ++ y).toNat = x.toNat % 2 ^ n * 2 ^ w + y.toNat := by
  rw [BitVec.toNat_append, ← Nat.shiftLeft_add_eq_or_of_lt y.isLt, Nat.shiftLeft_eq]
  simp

/-- Encoders that agree in the last pair and the last nibble take the same `QStep`: it reads nothing older. -/
theorem qstep_congr {e e' : Encoder} (hnib : e.nib.extractLsb' 0 2 = e'.nib.extractLsb' 0 2)
    (hroll : e.roll.extractLsb' 0 4 = e'.roll.extractLsb' 0 4) (pair : BitVec 2) :
    (qstep e pair).2 = (qstep e' pair).2 ∧ (qstep e pair).1.nib = (qstep e' pair).1.nib ∧
      (qstep e pair).1.roll.extractLsb' 0 4 = (qstep e' pair).1.roll.extractLsb' 0 4 := by
  unfold qstep
  rw [hnib, hroll]
  dsimp only
  split
  · exact ⟨rfl, rfl, hroll⟩
  · exact ⟨rfl, rfl, rfl⟩

theorem qstepResults_congr (ps : List (BitVec 2)) {e e' : Encoder}
    (hnib : e.nib.extractLsb' 0 2 = e'.nib.extractLsb' 0 2)
    (hroll : e.roll.extractLsb' 0 4 = e'.roll.extractLsb' 0 4) : qstepResults e ps = qstepResults e' ps := by
  induction ps generalizing e e' with
  | nil => rfl
  | cons p ps ih =>
    obtain ⟨hanswer, hnib', hroll'⟩ := qstep_congr hnib hroll p
    rw [qstepResults, qstepResults, hanswer, ih (congrArg _ hnib') hroll']

/-- An encoder at rest at 11, with the nibble `n` last in its register. -/
def restingEncoder (n : BitVec 4) : Encoder := ⟨0b0011, n.setWidth 8⟩

theorem qstepResults_of_resting {e : Encoder} (h : e.nib.toNat % 4 = 3) (ps : List (BitVec 2)) :
    qstepResults e ps = qstepResults (restingEncoder (e.roll.extractLsb' 0 4)) ps := by
  refine qstepResults_congr ps (BitVec.eq_of_toNat_eq ?_) (BitVec.eq_of_toNat_eq ?_)
  · simpa [restingEncoder] using h
  · simp [restingEncoder]

/-- R150, for each of the sixteen nibbles that may stand last in the register. -/
theorem qstepResults_restingEncoder : ∀ n : BitVec 4,
    qstepResults (restingEncoder n) [0b10, 0b00, 0b01, 0b11] = [0, 0, 0, 1] ∧
    qstepResults (restingEncoder n) [0b01, 0b00, 0b10, 0b11] = [0, 0, 0, -1] ∧
    qstepResults (restingEncoder n) [0b10, 0b11] = [0, 0] ∧
    qstepResults (restingEncoder n) [0b01, 0b00, 0b01, 0b11] = [0, 0, 0, 1] := by decide

/-- The pair is phase A, then phase B (R146). -/
theorem toNat_samplePair (pins : EncoderPins) (v : Snap) :
    (samplePair pins v).toNat = 2 * (v.getLsbD pins.a.val).toNat + (v.getLsbD pins.b.val).toNat := by
  unfold samplePair
  cases v.getLsbD pins.a.val <;> cases v.getLsbD pins.b.val <;> rfl

/-- Settles O43. `QStep` reads the last pair and the last nibble only, so at rest at 11 sixteen encoders stand for
all. -/
theorem detentEmitsOnce : Obligations.DetentEmitsOnce := by
  refine ⟨fun e pair => ⟨?_, qstep_of_qtab_eq_zero, fun hstep => ?_⟩, toNat_samplePair, fun e hrest => ?_⟩
  · rw [qstep_nib]
    exact toNat_append_extractLsb' 2 e.nib pair
  · obtain ⟨hroll, hanswer⟩ := qstep_of_qtab_ne_zero hstep
    refine ⟨?_, fun hup => ?_, fun hdown => ?_, fun hup hdown => ?_⟩
    · rw [hroll]
      exact toNat_append_extractLsb' 4 e.roll _
    · exact hanswer.trans (if_pos hup)
    · rw [hanswer, hdown]
      rfl
    · exact hanswer.trans ((if_neg hup).trans (if_neg hdown))
  · simp only [qstepResults_of_resting hrest]
    exact qstepResults_restingEncoder _

end Sys2Proof.Machine
end

section
/-! Where the next step fetches an instruction, and that a placed one is fetched, run and completed
(spec/40_capture.md R120 to R127, spec/42_sequencer.md R170, spec/45_gate.md R240). -/

namespace Sys2Proof.Machine

/-! ### Who moves next -/

theorem nextMove_of_stim_nil {s : State} (hm : midPass s.pos = true) (hstim : s.stim = []) :
    nextMove s = (.pass, s) := by
  simp [nextMove, hm, hstim]

theorem nextMove_go {s : State} {rest : List Stimulus} (hm : midPass s.pos = true) (hstim : s.stim = .go :: rest) :
    nextMove s = (.pass, { s with stim := rest }) := by
  simp [nextMove, hm, hstim]

theorem nextMove_preempt {s : State} {x : Stimulus} {rest : List Stimulus} (hm : midPass s.pos = true)
    (hx : mayPreempt x = true) (hstim : s.stim = .preempt :: x :: rest) :
    nextMove s = (.env x, { s with stim := rest }) := by
  simp [nextMove, hm, hx, hstim]

theorem nextMove_betweenPasses {s : State} {x : Stimulus} {rest : List Stimulus} (hm : midPass s.pos = false)
    (hstim : s.stim = x :: rest) : nextMove s = (.env x, { s with stim := rest }) := by
  simp [nextMove, hm, hstim]

/-! ### What that move fetches -/

theorem fetch_of_capture {s s1 : State} {code : BitVec 8} {operand : BitVec 64}
    (hmove : nextMove s = (.env (.capture code operand), s1)) (hpos : s1.pos ≠ .boot) :
    fetch s = some (.capevt code operand, s1) := by
  simp [fetch, hmove, hpos]

theorem fetch_of_update {s s1 : State} {w : OpWord} {ws : List OpWord} (hmove : nextMove s = (.pass, s1))
    (hpos : s1.pos = .update) (hopq : s1.opq = w :: ws) : fetch s = some (.opw w, { s1 with opq := ws }) := by
  simp [fetch, hmove, hpos, hopq]

theorem fetch_of_apply {s s1 : State} (hmove : nextMove s = (.pass, s1)) (hpos : s1.pos = .apply) :
    fetch s = some (.gcmd s1.gateCmd, { s1 with pos := afterGate s1.gateTrk }) := by
  simp [fetch, hmove, hpos]

theorem runRaw_of_decode {r : Raw} {i : Instr} {s : State} (hi : decode r = .ok i) (ht : timeOrdered i s = true) :
    runRaw r s = exec i s := by
  simp [runRaw, hi, ht]

/-- Settles O7. -/
theorem fetchedInstructionRuns : Obligations.FetchedInstructionRuns := by
  refine ⟨fun s s1 r i hf hfetch hi ht => ?_, fun s w ws => ?_, fun s hpos hstim => ?_, ⟨rfl, rfl, rfl, rfl⟩,
    fun s code operand rest => fetch_capture⟩
  · rw [step_of_fetch hf hfetch, runRaw_of_decode hi ht]
  · exact fun hpos hopq hstim => fetch_update hpos hstim hopq
  · exact fetch_of_apply (nextMove_of_stim_nil (by rw [hpos]; rfl) hstim) hpos

/-! ### Placed instructions -/

/-- `s` with `r` placed in it, once the fetch has taken `r`: the queue word, the marker or the event is gone again, and
past a gate command the pass agent stands where `afterGate` says. -/
def pastPlaced (r : Raw) (s : State) : State :=
  match r with
  | .opw w => { placeRaw (.opw w) s with opq := s.opq, stim := s.stim }
  | .gcmd c => { placeRaw (.gcmd c) s with pos := afterGate s.gateTrk, stim := s.stim }
  | .capevt code operand => { placeRaw (.capevt code operand) s with stim := s.stim }

theorem pastPlaced_fault (r : Raw) (s : State) : (pastPlaced r s).fault = none := by
  cases r <;> rfl

theorem placeRaw_fault (r : Raw) (s : State) : (placeRaw r s).fault = none := by
  cases r <;> rfl

/-- A capture is placed between passes, or inside one behind its marker; either way the environment's move is that
capture. -/
theorem nextMove_placeRaw_capevt (code : BitVec 8) (operand : BitVec 64) (s : State) :
    nextMove (placeRaw (.capevt code operand) s) =
      (.env (.capture code operand), pastPlaced (.capevt code operand) s) := by
  cases hm : midPass s.pos with
  | true =>
    have hpos : (placeRaw (.capevt code operand) s).pos = s.pos := if_neg (midPass_eq_true.mp hm).2
    exact nextMove_preempt (by rw [hpos, hm]) rfl (by simp [placeRaw, hm])
  | false =>
    have hpos : midPass (placeRaw (.capevt code operand) s).pos = false := by
      simp only [placeRaw]
      split
      · rfl
      · exact hm
    exact nextMove_betweenPasses hpos (by simp [placeRaw, hm])

theorem fetch_placeRaw (r : Raw) (s : State) : fetch (placeRaw r s) = some (r, pastPlaced r s) := by
  cases r with
  | opw w =>
    have hmove : nextMove (placeRaw (.opw w) s) = (.pass, { placeRaw (.opw w) s with stim := s.stim }) :=
      nextMove_go rfl rfl
    exact fetch_of_update hmove rfl rfl
  | gcmd c =>
    have hmove : nextMove (placeRaw (.gcmd c) s) = (.pass, { placeRaw (.gcmd c) s with stim := s.stim }) :=
      nextMove_go rfl rfl
    exact fetch_of_apply hmove rfl
  | capevt code operand =>
    refine fetch_of_capture (nextMove_placeRaw_capevt code operand s) ?_
    simp only [pastPlaced, placeRaw]
    split
    · nofun
    · assumption

/-- Without a fault, every instruction that waits for no line completes. -/
theorem exec_completes {i : Instr} {s : State} (hi : isCapture i = false) (hf : s.fault = none) :
    ∃ t, exec i s = .next t := by
  cases i with
  | clk _ | rst | rstclk _ | exp0 _ | exp1 _ => cases hi
  | _ => exact ⟨_, guarded_running hf _⟩

/-- Placing a capture leaves no later timestamp latched (spec/40_capture.md R128). -/
theorem pastPlaced_clkTs_le {code : BitVec 8} (hcode : code = 0 ∨ code = 2) (ts : Time) (s : State) :
    (pastPlaced (.capevt code ts) s).clkTs.toNat ≤ ts.toNat := by
  simp only [pastPlaced, placeRaw, hcode, true_and]
  split <;> omega

theorem timeOrdered_pastPlaced (i : Instr) (s : State) : timeOrdered i (pastPlaced (encode i) s) = true := by
  cases i with
  | clk ts => exact decide_eq_true (pastPlaced_clkTs_le (.inl rfl) ts s)
  | rstclk ts => exact decide_eq_true (pastPlaced_clkTs_le (.inr rfl) ts s)
  | _ => rfl

/-- A capture's own lines are pending where it is placed, and the other instructions wait for none. -/
theorem exec_pastPlaced (i : Instr) (s : State) : ∃ t, exec i (pastPlaced (encode i) s) = .next t := by
  cases i with
  | clk ts => exact ⟨_, exec_clk_eq_next.mpr ⟨rfl, rfl, rfl⟩⟩
  | rst => exact ⟨_, exec_rst_eq_next.mpr ⟨rfl, rfl, rfl⟩⟩
  | rstclk ts => exact ⟨_, exec_rstclk_eq_next.mpr ⟨rfl, rfl, rfl, rfl⟩⟩
  | exp0 v => exact ⟨_, exec_exp0_eq_next.mpr ⟨rfl, rfl, rfl⟩⟩
  | exp1 v => exact ⟨_, exec_exp1_eq_next.mpr ⟨rfl, rfl, rfl⟩⟩
  | _ => exact exec_completes rfl (pastPlaced_fault _ s)

/-- Settles O8. The bits are those of the instruction they decode to (O2), so the split is over instructions. -/
theorem placedInstructionCompletes : Obligations.PlacedInstructionCompletes := by
  intro s nbits w r i hraw hi
  have hplace : s.withFetchWord nbits w = placeRaw r s := by rw [State.withFetchWord, placeTableWord, hraw]
  obtain ⟨rfl, -⟩ := decodedBitsEncodeBack r i hi
  obtain ⟨t, ht⟩ := exec_pastPlaced i s
  refine ⟨pastPlaced (encode i) s, t, ?_, ?_, ht⟩
  · rw [hplace, fetch_placeRaw]
  · rw [hplace, step_of_fetch (placeRaw_fault _ s) (fetch_placeRaw _ s),
      runRaw_of_decode hi (timeOrdered_pastPlaced i s)]

end Sys2Proof.Machine
end

section
/-! The clock and the reset capture (spec/40_capture.md R120 to R122). -/

namespace Sys2Proof.Machine

/-- RSTCLK is RST and then CLK: a reset capture leaves the clock line pending (R122). -/
theorem exec_rstclk_eq_andThen {ts : Time} {s : State} (hf : s.fault = none) (hrst : s.irqPend.rst = true)
    (hclk : s.irqPend.clk = true) : exec (.rstclk ts) s = andThen (exec .rst s) (exec (.clk ts)) := by
  have hfirst : exec .rst s = .next (captureRst s) := exec_rst_eq_next.mpr ⟨hf, hrst, rfl⟩
  have hthen : exec (.clk ts) (captureRst s) = .next (captureClk ts (captureRst s)) :=
    exec_clk_eq_next.mpr ⟨hf, hclk, rfl⟩
  rw [hfirst, andThen, hthen]
  exact exec_rstclk_eq_next.mpr ⟨hf, hrst, hclk, rfl⟩

/-- Settles O10: each capture is its handler's effect. -/
theorem clockAndResetCaptures : Obligations.ClockAndResetCaptures := by
  intro ts s hf
  refine ⟨fun hclk => ?_, fun hrst => ?_, fun hrst hclk => ⟨exec_rstclk_eq_andThen hf hrst hclk, ?_⟩⟩
  · exact exec_clk_eq_next.mpr ⟨hf, hclk, rfl⟩
  · exact exec_rst_eq_next.mpr ⟨hf, hrst, rfl⟩
  · exact exec_rstclk_eq_next.mpr ⟨hf, hrst, hclk, rfl⟩

end Sys2Proof.Machine
end

section
/-! Lines 1 and 2 of a pass (spec/40_capture.md R125 to R128). -/

namespace Sys2Proof.Machine

theorem factsPending_eq_true {s : State} :
    factsPending s = true ↔
      s.clkPending = true ∨ s.rstPending = true ∨ s.expq.e0 ≠ [] ∨ s.expq.e1 ≠ [] := by
  simp [factsPending, or_assoc]

/-- The drain hands the newest timestamp over, stale or not (R126). -/
theorem drain_dTs (dirty : Bool) (s : State) : (drain dirty s).dTs = s.clkTs := by
  cases dirty <;> rfl

/-- A clock fact is handed over exactly by a drain that reads the facts dirty (R126). -/
theorem drain_dClk (dirty : Bool) (s : State) : (drain dirty s).dClk = (dirty && s.clkPending) := by
  cases dirty <;> rfl

theorem beginPass_misordered {p : PassInput} {s : State}
    (h : p.now.toNat < s.now.toNat ∨
      (dirtyAnswer p s = true ∧ s.clkPending = true ∧ p.now.toNat < s.clkTs.toNat)) :
    beginPass p s = .refused .timeOrder := by
  rw [beginPass, if_pos]
  rw [drain_dClk, drain_dTs, Bool.and_eq_true, and_assoc]
  exact h

/-- What lines 1 and 2 make of the drained state `s`: the pass's inputs and cleared marks, and a fault or the position
at line 3, as the bus-error check says (R127, spec/60_exceptions.md R265). -/
def passBegun (p : PassInput) (s : State) : State :=
  { s with
    now := p.now, mute := p.mute, regen := false, acted := false, ticked := false, dac := []
    fault := if p.busErr then some .busError else s.fault
    pos := if p.busErr then s.pos else .decode }

theorem busCheck_eq_passBegun (p : PassInput) (s : State) :
    (if p.busErr then raise .busError (passInputs p s) else { passInputs p s with pos := .decode }) =
      passBegun p s := by
  unfold passBegun
  cases p.busErr <;> rfl

theorem beginPass_ordered {p : PassInput} {s : State} (hnow : s.now.toNat ≤ p.now.toNat)
    (hts : s.clkTs.toNat ≤ p.now.toNat) :
    beginPass p s = .next (passBegun p (drain (dirtyAnswer p s) s)) := by
  rw [beginPass, if_neg]
  · exact congrArg Host.Outcome.next (busCheck_eq_passBegun p _)
  · rw [drain_dTs]
    omega

/-- Between passes a queued pass is begun, with its input taken from the list. -/
theorem step_pass {s : State} {p : PassInput} {rest : List Stimulus} (hf : s.fault = none) (hpos : s.pos = .idle)
    (hstim : s.stim = .pass p :: rest) : step s = beginPass p { s with stim := rest } := by
  have hmove := nextMove_betweenPasses (by rw [hpos]; rfl) hstim
  have hfetch : fetch s = none := by simp only [fetch, hmove]
  simp [step, hf, runningStep, hfetch, controlStep, hmove, envStep, hpos]

/-- Settles O51. -/
theorem misorderedTimeRefused : Obligations.MisorderedTimeRefused := by
  intro s p rest hf hpos hstim hlate
  rw [step_pass hf hpos hstim]
  exact beginPass_misordered hlate

/-- Settles O50: the drain by the dirty read's answer, then the bus-error check. -/
theorem passBeginsWithDrain : Obligations.PassBeginsWithDrain := by
  intro s p rest hf hpos hstim hnow hts
  refine ⟨factsPending_eq_true, _, (step_pass hf hpos hstim).trans (beginPass_ordered hnow hts), ?_⟩
  have hdirty : dirtyAnswer p { s with stim := rest } = p.dirty.getD (factsPending s) := rfl
  rw [hdirty]
  cases p.dirty.getD (factsPending s) with
  | true =>
    refine ⟨fun hb => if_pos hb, fun hb => ?_, fun _ => ⟨rfl, rfl, rfl, rfl, rfl⟩, nofun, rfl⟩
    simp [passBegun, hb, hf]
  | false =>
    refine ⟨fun hb => if_pos hb, fun hb => ?_, nofun, fun _ => ⟨rfl, rfl, rfl, rfl⟩, rfl⟩
    simp [passBegun, hb, hf]

end Sys2Proof.Machine
end

section
/-! Line 7 of a pass: `LfoSetOffset` for the four tracks, in order (spec/40_capture.md R127, spec/44_lfo.md R222,
R229). -/

namespace Sys2Proof.Machine

/-- The sample track `k` has to emit at its phase: its waveform's, unless it is the last one emitted (R222). -/
def newSample (s : State) (k : Track) : Option Sample :=
  (wave (s.lfoMode.get k) (s.phase.get k)).filter fun v => s.lastOut.get k ≠ some v

theorem newSample_eq_some {s : State} {k : Track} {v : Sample} :
    newSample s k = some v ↔ wave (s.lfoMode.get k) (s.phase.get k) = some v ∧ s.lastOut.get k ≠ some v := by
  simp [newSample]

/-- The events of line 7 over the tracks `ts`: one for each track with a new sample, in the order of `ts`. -/
def lfoEvents (s : State) (ts : List Track) : List (Track × Sample) :=
  ts.filterMap fun k => (newSample s k).map (k, ·)

theorem mem_lfoEvents {s : State} {ts : List Track} {k : Track} {v : Sample} :
    (k, v) ∈ lfoEvents s ts ↔ k ∈ ts ∧ newSample s k = some v := by
  simp [lfoEvents]

theorem lfoEvents_tracks_sublist (s : State) (ts : List Track) : ((lfoEvents s ts).map (·.1)).Sublist ts := by
  induction ts with
  | nil => exact .slnil
  | cons k ts ih =>
    cases h : newSample s k with
    | none => simpa [lfoEvents, h] using ih.cons k
    | some v => simpa [lfoEvents, h] using ih

/-- The last outputs once line 7 has run over the tracks `ts`. -/
def lfoOutputs (s : State) (ts : List Track) : PerTrack (Option Sample) :=
  PerTrack.ofFn fun k => if k ∈ ts then (newSample s k).or (s.lastOut.get k) else s.lastOut.get k

@[simp] theorem lfoOutputs_get (s : State) (ts : List Track) (k : Track) :
    (lfoOutputs s ts).get k = if k ∈ ts then (newSample s k).or (s.lastOut.get k) else s.lastOut.get k :=
  PerTrack.get_ofFn _ k

/-- One track's `LfoSetOffset` at its phase (R222). -/
theorem lfoSetOffset_phase (t : Track) (s : State) :
    lfoSetOffset t (s.phase.get t) s =
      { s with
        lastOut := s.lastOut.set t ((newSample s t).or (s.lastOut.get t))
        dac := s.dac ++ lfoEvents s [t] } := by
  cases h : newSample s t with
  | none =>
    have hsame : lfoSetOffset t (s.phase.get t) s = s :=
      (lfoSetOffset_cases t _ s).resolve_right fun ⟨v, hwave, hlast, _⟩ => by
        rw [newSample_eq_some.mpr ⟨hwave, hlast⟩] at h
        cases h
    simp [hsame, lfoEvents, h]
  | some v =>
    obtain ⟨hwave, hlast⟩ := newSample_eq_some.mp h
    simp [lfoSetOffset, hwave, hlast, lfoEvents, h]

/-- One track's `LfoSetOffset` leaves the other tracks' samples alone. -/
theorem newSample_lfoSetOffset_of_ne (s : State) {k t : Track} (h : k ≠ t) :
    newSample (lfoSetOffset t (s.phase.get t) s) k = newSample s k := by
  simp [lfoSetOffset_phase, newSample, h]

theorem lfoOutputs_cons (s : State) {t : Track} {ts : List Track} (hnot : t ∉ ts) :
    lfoOutputs (lfoSetOffset t (s.phase.get t) s) ts = lfoOutputs s (t :: ts) := by
  refine PerTrack.ext_get fun k => ?_
  by_cases hk : k = t
  · simp [hk, hnot, lfoSetOffset_phase]
  · rw [lfoOutputs_get, newSample_lfoSetOffset_of_ne s hk]
    simp [hk, lfoSetOffset_phase]

theorem lfoEvents_cons (s : State) {t : Track} {ts : List Track} (hnot : t ∉ ts) :
    lfoEvents s [t] ++ lfoEvents (lfoSetOffset t (s.phase.get t) s) ts = lfoEvents s (t :: ts) := by
  have hrest : lfoEvents (lfoSetOffset t (s.phase.get t) s) ts = lfoEvents s ts :=
    List.filterMap_congr fun k hk => by rw [newSample_lfoSetOffset_of_ne s (ne_of_mem_of_not_mem hk hnot)]
  rw [hrest]
  exact List.filterMap_append.symm

/-- The loop of line 7 over tracks that stand once in the list. -/
theorem foldl_lfoSetOffset_eq (ts : List Track) (hts : ts.Nodup) (s : State) :
    ts.foldl (fun s t => lfoSetOffset t (s.phase.get t) s) s =
      { s with lastOut := lfoOutputs s ts, dac := s.dac ++ lfoEvents s ts } := by
  induction ts generalizing s with
  | nil =>
    have hout : lfoOutputs s [] = s.lastOut := PerTrack.ext_get fun k => by simp
    simp [hout, lfoEvents]
  | cons t ts ih =>
    obtain ⟨hnot, hts⟩ := List.nodup_cons.mp hts
    rw [List.foldl_cons, ih hts, lfoOutputs_cons s hnot, ← lfoEvents_cons s hnot, ← List.append_assoc,
      lfoSetOffset_phase]

theorem lfoLine_eq (s : State) :
    lfoLine s =
      { s with lastOut := lfoOutputs s Track.all, dac := s.dac ++ lfoEvents s Track.all, pos := .gate .t0 } := by
  rw [lfoLine, foldl_lfoSetOffset_eq Track.all (by decide)]

/-- Inside a pass, where no input is queued and nothing is fetched, the step is the pass agent's line. -/
theorem step_passLine {s : State} (hf : s.fault = none) (hm : midPass s.pos = true) (hstim : s.stim = [])
    (hfetch : fetch s = none) : step s = .next (passLine s) := by
  simp [step, hf, runningStep, hfetch, controlStep, nextMove_of_stim_nil hm hstim]

theorem step_lfo {s : State} (hf : s.fault = none) (hpos : s.pos = .lfo) (hstim : s.stim = []) :
    step s = .next (lfoLine s) := by
  have hm : midPass s.pos = true := by rw [hpos]; rfl
  have hfetch : fetch s = none := by simp [fetch, nextMove_of_stim_nil hm hstim, hpos]
  rw [step_passLine hf hm hstim hfetch, passLine, hpos]

/-- A track with a waveform holds its sample as the last one emitted, new or not. -/
theorem lfoOutputs_get_of_wave {s : State} {k : Track} {v : Sample}
    (h : wave (s.lfoMode.get k) (s.phase.get k) = some v) : (lfoOutputs s Track.all).get k = some v := by
  rw [lfoOutputs_get, if_pos k.mem_all, newSample, h]
  by_cases hlast : s.lastOut.get k = some v
  · simp [hlast, Option.filter_some]
  · simp [hlast]

theorem lfoOutputs_get_of_random {s : State} {k : Track} (h : s.lfoMode.get k = .random) :
    (lfoOutputs s Track.all).get k = s.lastOut.get k := by
  rw [lfoOutputs_get, if_pos k.mem_all, newSample, (wave_eq_none _ _).mpr h]
  rfl

/-- Settles O38: the loop's outputs and events, track by track. -/
theorem lfoLineEmitsInTrackOrder : Obligations.LfoLineEmitsInTrackOrder := by
  intro s hf hpos hstim
  refine ⟨_, lfoEvents s Track.all, (step_lfo hf hpos hstim).trans (congrArg _ (lfoLine_eq s)), rfl,
    lfoEvents_tracks_sublist s Track.all, fun k v => ?_, fun k v => lfoOutputs_get_of_wave,
    fun k => (wave_eq_none _ _).symm, fun k => lfoOutputs_get_of_random⟩
  rw [mem_lfoEvents, newSample_eq_some, and_iff_right k.mem_all]

end Sys2Proof.Machine
end

section
/-! Which faults a step from a sound state can raise (spec/41_decode.md R157, spec/45_gate.md R247,
spec/60_exceptions.md R261). -/

namespace Sys2Proof.Machine

/-! ### Instructions -/

/-- The reserved gate command is the only instruction that raises a fault. -/
theorem exec_fault {i : Instr} {s t : State} (hi : i ≠ .gcmdReserved) (h : exec i s = .next t) : t.fault = none := by
  cases i with
  | gcmdReserved => exact absurd rfl hi
  | clk ts => obtain ⟨hf, -, rfl⟩ := exec_clk_eq_next.mp h; exact hf
  | rst => obtain ⟨hf, -, rfl⟩ := exec_rst_eq_next.mp h; exact hf
  | rstclk ts => obtain ⟨hf, -, -, rfl⟩ := exec_rstclk_eq_next.mp h; exact hf
  | exp0 v => obtain ⟨hf, -, rfl⟩ := exec_exp0_eq_next.mp h; exact hf
  | exp1 v => obtain ⟨hf, -, rfl⟩ := exec_exp1_eq_next.mp h; exact hf
  | seed d =>
    obtain ⟨hf, ⟨⟩⟩ := guarded_eq_next.mp h
    split
    · exact hf
    · dsimp only; split <;> exact hf
  | length d =>
    obtain ⟨hf, ⟨⟩⟩ := guarded_eq_next.mp h
    dsimp only; split <;> exact hf
  | offset k d | steps k d =>
    obtain ⟨hf, ⟨⟩⟩ := guarded_eq_next.mp h
    split <;> exact hf
  | retain =>
    obtain ⟨hf, ⟨⟩⟩ := guarded_eq_next.mp h
    rw [gateOff_eq]
    split <;> exact hf
  | set =>
    obtain ⟨hf, ⟨⟩⟩ := guarded_eq_next.mp h
    exact (congrArg State.fault (gateOn_frame s.gateTrk s).2).trans hf
  | clear =>
    obtain ⟨hf, ⟨⟩⟩ := guarded_eq_next.mp h
    rw [gateOff_eq]
    exact hf
  | _ =>
    obtain ⟨hf, ⟨⟩⟩ := guarded_eq_next.mp h
    exact hf

/-- A sound state offers the step no reserved gate command and no word that does not decode. -/
theorem fetch_decodes {s s1 : State} {r : Raw} (h : Sound s) (hfetch : fetch s = some (r, s1)) :
    r ≠ .gcmd 0b11 ∧ ∀ w, r = .opw w → ∃ i, decodeOpw w = .ok i := by
  obtain ⟨st, k, ⟨code, operand, rfl, -⟩ | ⟨w, ws, rfl, -, hopq, -⟩ | ⟨rfl, -⟩⟩ := fetch_cases hfetch
  · exact ⟨nofun, nofun⟩
  · refine ⟨nofun, fun w' hw' => ?_⟩
    cases hw'
    exact decodeOpw_ok (h.opqWords w (hopq ▸ List.mem_cons_self))
  · exact ⟨fun hc => h.gateCmd (Raw.gcmd.inj hc), nofun⟩

/-- No instruction that a sound state fetches raises a fault: only the bits `0b11` are the reserved command. -/
theorem runRaw_fault {s s1 t : State} {r : Raw} (h : Sound s) (hfetch : fetch s = some (r, s1))
    (hrun : runRaw r s1 = .next t) : t.fault = none := by
  obtain ⟨hcmd, hword⟩ := fetch_decodes h hfetch
  rcases runRaw_cases hrun with ⟨i, hi, -, hexec⟩ | ⟨w, e, hr, he, -⟩
  · refine exec_fault (fun hres => hcmd ?_) hexec
    obtain ⟨henc, -⟩ := decodedBitsEncodeBack r i hi
    rw [← henc, hres, encode]
  · obtain ⟨i, hi⟩ := hword w hr
    cases he.symm.trans hi

/-! ### The environment's inputs -/

theorem boot_fault (ok : Bool) (s : State) : (boot ok s).fault = none ∨ (boot ok s).fault = some .bootConfig := by
  cases ok with
  | true => exact .inl rfl
  | false => exact .inr rfl

theorem drain_fault (dirty : Bool) (s : State) : (drain dirty s).fault = s.fault := by
  cases dirty <;> rfl

/-- Lines 1 and 2 raise BUS_ERROR, if anything (spec/60_exceptions.md R265). -/
theorem beginPass_fault {p : PassInput} {s t : State} (hf : s.fault = none) (h : beginPass p s = .next t) :
    t.fault = none ∨ t.fault = some .busError := by
  unfold beginPass at h
  dsimp only at h
  split at h
  · cases h
  · cases h
    split
    · exact .inr rfl
    · exact .inl ((drain_fault _ s).trans hf)

theorem envStep_fault {x : Stimulus} {s t : State} (hf : s.fault = none) (h : envStep x s = .next t) :
    t.fault = none ∨ t.fault = some .busError ∨ t.fault = some .bootConfig := by
  cases x with
  | powerOn => cases h; exact .inl rfl
  | boot ok =>
    simp only [envStep] at h
    split at h
    · cases h
      exact (boot_fault ok s).imp_right .inr
    · cases h
  | edge l =>
    cases h
    unfold lineEdge
    split <;> exact .inl hf
  | capture code operand => cases h
  | pass p =>
    simp only [envStep] at h
    split at h
    · cases h
    · exact (beginPass_fault hf h).imp_right .inl
  | go => cases h; exact .inl hf
  | preempt => cases h; exact .inl hf

/-! ### The lines of a pass -/

/-- A pass's words fit an empty operation queue (spec/41_decode.md R157). -/
theorem decodeInputs_fit {s : State} (hq : s.opq = []) : s.opq.length + (decodeInputs s).2.length ≤ 64 := by
  have hlen : (decodeInputs s).2.length ≤ 22 := emitWords_length_le _ _ _
  rw [hq, List.length_nil]
  omega

theorem updateEnd_fault (s : State) : (updateEnd s).fault = s.fault := by
  unfold updateEnd
  cases s.regen <;> cases s.acted <;> rfl

/-- The pass agent's lines raise no fault: line 4 finds the operation queue empty. -/
theorem passLine_fault {s : State} (h : Sound s) (hf : s.fault = none) : (passLine s).fault = none := by
  unfold passLine
  cases hpos : s.pos with
  | boot | idle | apply | time | gate t => exact hf
  | decode => exact (decodeLine_fields hf (decodeInputs_fit (h.opqEmpty hf (by rw [hpos]; nofun)))).1
  | update => exact (updateEnd_fault s).trans hf
  | lfo =>
    obtain ⟨o, d, hod⟩ := lfoLine_frame s
    exact (congrArg State.fault hod).trans hf

/-! ### Every step -/

/-- The faults that a step from a sound state can raise are the environment's. -/
theorem step_sound_fault {s t : State} (h : Sound s) (hf : s.fault = none) (hstep : step s = .next t) :
    t.fault = none ∨ t.fault = some .busError ∨ t.fault = some .bootConfig := by
  rcases step_cases hf hstep with ⟨r, s1, hfetch, hrun⟩ | ⟨x, s1, hmove, henv⟩ | ⟨s1, -, hmove, rfl⟩
  · exact .inl (runRaw_fault h hfetch hrun)
  · obtain ⟨st, k, rfl⟩ := nextMove_eq hmove
    have hf1 : ({ s with stim := st, freeIdx := k } : State).fault = none := hf
    exact envStep_fault hf1 henv
  · obtain ⟨st, k, rfl⟩ := nextMove_eq hmove
    have h1 : Sound { s with stim := st, freeIdx := k } := { h with }
    exact .inl (passLine_fault h1 hf)

/-- Settles O56: each fault that is left is another one. -/
theorem decoderNeverCausesQueueFaults : Obligations.DecoderNeverCausesQueueFaults := by
  intro s t hinv hf hstep
  have hsound : Sound s := hinv.resolve_left (by rw [hf]; nofun)
  rcases step_sound_fault hsound hf hstep with ht | ht | ht <;> rw [ht] <;> exact ⟨nofun, nofun⟩

end Sys2Proof.Machine
end

section
/-! RESET, and the Tick that follows it (spec/42_sequencer.md R172, R173, spec/41_decode.md R143). -/

namespace Sys2Proof.Machine

theorem exec_reset_running {s : State} (hf : s.fault = none) :
    exec .reset s = .next { s with pst := Config.preset s.pst, resetArmed := true } :=
  guarded_running hf _

/-- At a global playhead of 0 the tracks that follow it stand at 0, whatever their lengths (R172). -/
theorem trackPlayhead_restarted {p : SyncPolicy} (hp : p ≠ .loop) (tickCount : BitVec 32) (plen len : Nat) :
    trackPlayhead p 0 tickCount plen len = 0 := by
  cases p with
  | sync => exact Nat.zero_mod _
  | free => exact Nat.zero_mod _
  | loop => exact absurd rfl hp

/-- A Tick with a reset armed moves the global playhead to 0, and with it every track that is not Loop. -/
theorem exec_tick_armed {s : State} (hf : s.fault = none) (harmed : s.resetArmed = true) (n : Nat) :
    ∃ t, exec (.tick n) s = .next t ∧ t.gph = 0 ∧ (∀ k, s.sync.get k ≠ .loop → t.tph.get k = 0) ∧
      t.tickCount = s.tickCount + 1 := by
  have hgph : nextGph s = 0 := by rw [nextGph, harmed, if_pos rfl]
  refine ⟨_, guarded_running hf _, hgph, fun k hk => ?_, rfl⟩
  rw [PerTrack.get_ofFn, hgph]
  exact trackPlayhead_restarted hk _ _ _

/-- Settles O18. -/
theorem resetThenTickRestarts : Obligations.ResetThenTickRestarts := by
  intro n s hf
  obtain ⟨t, htick, hgph, htph, hcount⟩ :=
    exec_tick_armed (s := { s with pst := Config.preset s.pst, resetArmed := true }) hf rfl n
  have hreset := exec_reset_running hf
  refine ⟨hreset, t, ?_, hgph, htph, ?_⟩
  · rw [hreset, andThen, htick]
  · rw [hcount]
    exact BitVec.toNat_add s.tickCount 1

end Sys2Proof.Machine
end

section
/-! Buttons: raw level, hold time and click (spec/41_decode.md R151, R152). -/

namespace Sys2Proof.Machine

theorem sampleButton_own (pin : ButtonPin) (now : Time) (v : Snap) (b : Button) :
    sampleButton pin now pin.exp v b =
      if v.getLsbD pin.bit.val = b.raw then b else { b with raw := v.getLsbD pin.bit.val, chg := now } := by
  rw [sampleButton, if_pos rfl]
  exact ite_not _ _ _

theorem sampleButton_of_ne {pin : ButtonPin} {e : Expander} (h : e ≠ pin.exp) (now : Time) (v : Snap) (b : Button) :
    sampleButton pin now e v b = b :=
  if_neg h.symm

theorem debounce_held {hold now : Time} {b : Button} (hraw : b.raw ≠ b.deb)
    (hheld : b.chg.toNat + hold.toNat ≤ now.toNat) : debounce hold now b = ({ b with deb := b.raw }, b.raw) :=
  if_pos ⟨hraw, hheld⟩

theorem debounce_not_held {hold now : Time} {b : Button}
    (h : b.raw = b.deb ∨ now.toNat < b.chg.toNat + hold.toNat) : debounce hold now b = (b, false) :=
  if_neg fun ⟨hraw, hheld⟩ => h.elim hraw (Nat.not_lt.mpr hheld)

/-- Settles O44: the two arms of a sample, and the two of the debounce. -/
theorem debounceAndClick : Obligations.DebounceAndClick :=
  ⟨sampleButton_own, fun _ now _ v b h => sampleButton_of_ne h now v b,
    fun _ _ _ hraw hheld hchg => debounce_held hraw (by omega), fun _ _ _ => debounce_not_held⟩

end Sys2Proof.Machine
end

section
/-! The ten controls and their families of values. -/

namespace Sys2Proof

theorem PerControl.ext_get {α : Type} {p q : PerControl α} (h : ∀ c, p.get c = q.get c) : p = q := by
  have hoffset : p.offset = q.offset := PerTrack.ext_get fun t => h (.offset t)
  have hsteps : p.steps = q.steps := PerTrack.ext_get fun t => h (.steps t)
  cases p; cases q
  exact PerControl.mk.injEq .. ▸ ⟨h .seed, h .length, hoffset, hsteps⟩

theorem Control.mem_all (c : Control) : c ∈ Control.all := by
  cases c with
  | seed | length => decide
  | offset t | steps t => cases t <;> decide

end Sys2Proof
end

section
/-! Lines 3 and 4 of a pass: what the decoder writes, and the words it pushes (spec/41_decode.md R140 to R157). -/

namespace Sys2Proof.Machine

/-! ### A pass's decode, over the snapshots of each control's own expander -/

/-- An encoder takes `QStep` on the pairs sampled from its expander's snapshots (R144, R146, R147). -/
theorem decodedWith_enc_eq (m : PinMap) (hold : Time) (s : State) (c : Control) :
    (decodedWith m hold s).enc.get c =
      ((s.dSnap.get (m.enc.get c).exp).map fun v => samplePair (m.enc.get c) v).foldl
        (fun e pair => (qstep e pair).1) (s.enc.get c) := by
  rw [decodedWith_enc, runEncoder_fst]

/-- The net count of an encoder (R146). -/
theorem decodedWith_raw_eq (m : PinMap) (hold : Time) (s : State) (c : Control) :
    (decodedWith m hold s).raw.get c =
      (qstepResults (s.enc.get c) ((s.dSnap.get (m.enc.get c).exp).map fun v => samplePair (m.enc.get c) v)).sum := by
  rw [decodedWith_raw, runEncoder_snd]

/-- A button takes its expander's snapshots, and then its debounce (R151, R152). -/
theorem decodedWith_btn_eq (m : PinMap) (hold : Time) (s : State) (c : Control) :
    (decodedWith m hold s).btn.get c =
      (debounce hold s.now ((s.dSnap.get (m.btn.get c).exp).foldl
        (fun b v => sampleButton (m.btn.get c) s.now (m.btn.get c).exp v b) (s.btn.get c))).1 := by
  rw [decodedWith_btn, runButton_eq]

theorem decodedWith_click_eq (m : PinMap) (hold : Time) (s : State) (c : Control) :
    (decodedWith m hold s).click.get c =
      (debounce hold s.now ((s.dSnap.get (m.btn.get c).exp).foldl
        (fun b v => sampleButton (m.btn.get c) s.now (m.btn.get c).exp v b) (s.btn.get c))).2 := by
  rw [decodedWith_click, runButton_eq]

theorem decodedWith_dSeed (m : PinMap) (hold : Time) (s : State) :
    (decodedWith m hold s).dSeed =
      min (max (accel s.ast ((decodedWith m hold s).raw.get .seed) s.now).1 (-2 ^ 31)) (2 ^ 31 - 1) := rfl

theorem decodedWith_interval (m : PinMap) (hold : Time) (s : State) :
    (decodedWith m hold s).interval = min (s.dTs.toNat - s.lastClkTs.toNat) (2 ^ 32 - 1) := rfl

/-! ### The step -/

theorem step_decode {s : State} (hf : s.fault = none) (hpos : s.pos = .decode) (hstim : s.stim = []) :
    step s = .next (decodeLine s) := by
  have hm : midPass s.pos = true := by rw [hpos]; rfl
  have hfetch : fetch s = none := by simp [fetch, nextMove_of_stim_nil hm hstim, hpos]
  rw [step_passLine hf hm hstim hfetch, passLine, hpos]

/-- Settles O47. -/
theorem decoderCannotOverflow : Obligations.DecoderCannotOverflow := by
  refine fun s => ⟨emitWords_length_le _ _ _, fun hf hpos hstim hq => ?_⟩
  obtain ⟨hfault, hopq, hupdate⟩ := decodeLine_fields hf (decodeInputs_fit hq)
  rw [hq, List.nil_append] at hopq
  exact ⟨_, step_decode hf hpos hstim, hfault, hopq, hupdate⟩

/-- The cache after a pass (R144). -/
theorem decoderWrites_expCache_get (d : Decoded) (s : State) (e : Expander) :
    (decoderWrites d s).expCache.get e = newestSnapshot (s.expCache.get e) (s.dSnap.get e) := by
  cases e <;> rfl

theorem newestSnapshot_append (cached : Snap) (older : List Snap) (v : Snap) :
    newestSnapshot cached (older ++ [v]) = v := by
  rw [newestSnapshot, List.getLast?_concat, Option.getD_some]

/-- Settles O48: the decoder's writes, field by field, and the words behind them. -/
theorem decodeWritesDecoderStateOnly : Obligations.DecodeWritesDecoderStateOnly := by
  intro s hf hpos hstim hq pairs
  have henc : ∀ c, (decodedWith pinMap Config.debounceHold s).enc.get c =
      (pairs c).foldl (fun e pair => (qstep e pair).1) (s.enc.get c) := decodedWith_enc_eq _ _ s
  have hast := decodedWith_ast pinMap Config.debounceHold s
  have hcache := decoderWrites_expCache_get (decodedWith pinMap Config.debounceHold s) s
  rw [decodedWith_raw_eq] at hast
  refine ⟨_, (step_decode hf hpos hstim).trans (congrArg _ (decodeLine_of_fits hf (decodeInputs_fit hq))), rfl, henc,
    decodedWith_btn_eq _ _ s, hast, fun e => ⟨fun hnone => ?_, fun older v hsome => ?_⟩, fun hnone => ?_⟩
  · refine (hcache e).trans ?_
    rw [hnone]
    rfl
  · refine (hcache e).trans ?_
    rw [hsome, newestSnapshot_append]
  · refine PerControl.ext_get fun c => (henc c).trans ?_
    have hpairs : pairs c = [] := by
      have hdrained : s.dSnap.get (pinMap.enc.get c).exp = [] := by
        rw [hnone]
        cases (pinMap.enc.get c).exp <;> rfl
      exact congrArg _ hdrained
    rw [hpairs, List.foldl_nil]

end Sys2Proof.Machine
end

section
/-! The operations a pass emits: their order, their operands and their conditions (spec/41_decode.md R141 to R156). -/

namespace Sys2Proof.Machine

/-! ### The operations, in order -/

/-- The operation of a control's encoder. -/
def deltaOp : Control → Int → Instr
  | .seed, d => .seed d
  | .length, d => .length d
  | .offset t, d => .offset t d
  | .steps t, d => .steps t d

/-- The operation of a control's button. -/
def clickOp : Control → Instr
  | .seed => .seedClick
  | .length => .lengthClick
  | .offset t => .offsetClick t
  | .steps t => .stepsClick t

/-- The delta a control has to emit: the seed's after acceleration and clamping, another's its net count (R153,
R154). -/
def deltaOf (d : Decoded) : Control → Int
  | .seed => d.dSeed
  | c => d.raw.get c

/-- The operations of R156 in its order, each with its condition. -/
def emissions (dRst dClk : Bool) (d : Decoded) : List (Bool × Instr) :=
  (dRst, .reset) :: (dClk, .tick d.interval) ::
    Control.all.flatMap fun c =>
      [(decide (deltaOf d c ≠ 0), deltaOp c (deltaOf d c)), (d.click.get c, clickOp c)]

/-- The operations a pass emits. -/
def emittedOps (dRst dClk : Bool) (d : Decoded) : List Instr :=
  ((emissions dRst dClk d).filter (·.1)).map (·.2)

theorem flatMap_emitIf (l : List (Bool × Instr)) :
    (l.flatMap fun x => emitIf x.1 x.2) = ((l.filter (·.1)).map (·.2)).map opWordOf := by
  induction l with
  | nil => rfl
  | cons x l ih =>
    obtain ⟨b, i⟩ := x
    rw [List.flatMap_cons, ih]
    cases b <;> rfl

/-- The words of a pass are those of its operations. -/
theorem emitWords_eq (dRst dClk : Bool) (d : Decoded) :
    emitWords dRst dClk d = (emittedOps dRst dClk d).map opWordOf := by
  rw [emittedOps, ← flatMap_emitIf]
  simp only [emissions, emitWords, emitTrack, Track.all, Control.all, List.flatMap_cons, List.flatMap_nil,
    List.append_assoc, List.append_nil, List.cons_append, List.nil_append]
  rfl

/-- The operations of R156 have the ranks 0 to 21. -/
theorem emissions_rank (dRst dClk : Bool) (d : Decoded) :
    (emissions dRst dClk d).map (fun x => emitRank x.2) = List.range 22 := rfl

theorem emittedOps_rank_sublist (dRst dClk : Bool) (d : Decoded) :
    ((emittedOps dRst dClk d).map emitRank).Sublist (List.range 22) := by
  rw [← emissions_rank dRst dClk d, emittedOps, List.map_map]
  exact List.filter_sublist.map _

theorem emittedOps_pairwise (dRst dClk : Bool) (d : Decoded) :
    (emittedOps dRst dClk d).Pairwise fun i j => emitRank i < emitRank j :=
  List.pairwise_map.mp (List.pairwise_lt_range.sublist (emittedOps_rank_sublist dRst dClk d))

theorem emitRank_lt_of_mem {dRst dClk : Bool} {d : Decoded} {i : Instr} (hi : i ∈ emittedOps dRst dClk d) :
    emitRank i < 22 :=
  List.mem_range.mp ((emittedOps_rank_sublist dRst dClk d).subset (List.mem_map_of_mem hi))

/-! ### Which operations are among them -/

theorem mem_emittedOps {dRst dClk : Bool} {d : Decoded} {i : Instr} :
    i ∈ emittedOps dRst dClk d ↔
      (dRst = true ∧ i = .reset) ∨ (dClk = true ∧ i = .tick d.interval) ∨
        ∃ c, (deltaOf d c ≠ 0 ∧ i = deltaOp c (deltaOf d c)) ∨ (d.click.get c = true ∧ i = clickOp c) := by
  simp [emittedOps, emissions, Control.mem_all]

@[simp] theorem deltaOp_inj {c c' : Control} {x x' : Int} : deltaOp c x = deltaOp c' x' ↔ c = c' ∧ x = x' := by
  cases c <;> cases c' <;> simp [deltaOp]

@[simp] theorem clickOp_inj {c c' : Control} : clickOp c = clickOp c' ↔ c = c' := by
  cases c <;> cases c' <;> simp [clickOp]

@[simp] theorem deltaOp_ne_clickOp (c c' : Control) (x : Int) : deltaOp c x ≠ clickOp c' := by
  cases c <;> cases c' <;> nofun

/-- A control's operation is none of a drained fact's. -/
theorem deltaOp_ne_fact (c : Control) (x : Int) : deltaOp c x ≠ .reset ∧ ∀ n, deltaOp c x ≠ .tick n := by
  cases c <;> exact ⟨nofun, nofun⟩

theorem clickOp_ne_fact (c : Control) : clickOp c ≠ .reset ∧ ∀ n, clickOp c ≠ .tick n := by
  cases c <;> exact ⟨nofun, nofun⟩

theorem reset_mem_emittedOps {dRst dClk : Bool} {d : Decoded} :
    .reset ∈ emittedOps dRst dClk d ↔ dRst = true := by
  simp [mem_emittedOps, (deltaOp_ne_fact _ _).1.symm, (clickOp_ne_fact _).1.symm]

theorem tick_mem_emittedOps {dRst dClk : Bool} {d : Decoded} {n : Nat} :
    .tick n ∈ emittedOps dRst dClk d ↔ dClk = true ∧ n = d.interval := by
  simp [mem_emittedOps, ((deltaOp_ne_fact _ _).2 _).symm, ((clickOp_ne_fact _).2 _).symm]

theorem deltaOp_mem_emittedOps {dRst dClk : Bool} {d : Decoded} {c : Control} {x : Int} :
    deltaOp c x ∈ emittedOps dRst dClk d ↔ x ≠ 0 ∧ x = deltaOf d c := by
  have hmem : deltaOp c x ∈ emittedOps dRst dClk d ↔ deltaOf d c ≠ 0 ∧ x = deltaOf d c := by
    simp [mem_emittedOps, deltaOp_ne_fact]
  exact hmem.trans (and_congr_left fun hx => by rw [hx])

theorem clickOp_mem_emittedOps {dRst dClk : Bool} {d : Decoded} {c : Control} :
    clickOp c ∈ emittedOps dRst dClk d ↔ d.click.get c = true := by
  simp [mem_emittedOps, clickOp_ne_fact, (deltaOp_ne_clickOp _ _ _).symm]

/-- Settles O46. The Tick is emitted exactly where the previous clock is replaced. -/
theorem clockEdgeInterval : Obligations.ClockEdgeInterval := by
  refine fun s => ⟨fun hclk => ⟨if_pos hclk, ?_⟩, fun hclk => if_neg (by rw [hclk]; nofun)⟩
  rw [decodeInputs_snd, emitWords_eq]
  exact List.mem_map_of_mem (tick_mem_emittedOps.mpr ⟨hclk, decodedWith_interval pinMap Config.debounceHold s⟩)

/-! ### Their operands fit -/

theorem qstep_natAbs_le (e : Encoder) (pair : BitVec 2) : (qstep e pair).2.natAbs ≤ 1 := by
  unfold qstep
  dsimp only
  repeat' split
  all_goals simp

/-- A net count is at most the number of snapshots. -/
theorem natAbs_sum_qstepResults_le (ps : List (BitVec 2)) (e : Encoder) :
    (qstepResults e ps).sum.natAbs ≤ ps.length := by
  induction ps generalizing e with
  | nil => exact Nat.le_refl 0
  | cons p ps ih =>
    have hhead := qstep_natAbs_le e p
    have htail := ih (qstep e p).1
    rw [qstepResults, List.sum_cons, List.length_cons]
    omega

/-- The seed's delta is clamped, and another's is a count of at most 64 snapshots. -/
theorem deltaFits_deltaOf (m : PinMap) (hold : Time) {s : State} (h : ∀ e, (s.dSnap.get e).length ≤ 64)
    (c : Control) : deltaFits (deltaOf (decodedWith m hold s) c) = true := by
  rw [deltaFits_iff]
  have hraw : ((decodedWith m hold s).raw.get c).natAbs ≤ 64 := by
    rw [decodedWith_raw_eq]
    refine (natAbs_sum_qstepResults_le _ _).trans ?_
    rw [List.length_map]
    exact h _
  cases c with
  | seed =>
    rw [deltaOf, decodedWith_dSeed]
    omega
  | length | offset t | steps t =>
    rw [deltaOf]
    · omega
    · nofun

theorem wellFormed_of_mem_emittedOps {dRst dClk : Bool} {d : Decoded} {i : Instr}
    (hinterval : intervalFits d.interval = true) (hdelta : ∀ c, deltaFits (deltaOf d c) = true)
    (hi : i ∈ emittedOps dRst dClk d) : i.wellFormed = true := by
  rcases mem_emittedOps.mp hi with ⟨-, rfl⟩ | ⟨-, rfl⟩ | ⟨c, ⟨-, rfl⟩ | ⟨-, rfl⟩⟩
  · rfl
  · exact hinterval
  · cases c <;> exact hdelta _
  · cases c <;> rfl

/-- A well-formed operation is read back from its word (spec/30_encoding.md R93, R94). -/
theorem decode_opWordOf {i : Instr} (hwf : i.wellFormed = true) (hop : emitRank i < 22) :
    decode (.opw (opWordOf i)) = .ok i := by
  have henc : encode i = .opw (opWordOf i) := by
    cases i with
    | retain | set | clear | gcmdReserved | clk _ | rst | rstclk _ | exp0 _ | exp1 _ =>
      exact absurd hop (Nat.lt_irrefl 22)
    | _ => rfl
  rw [← henc]
  exact encodedInstructionDecodesBack i hwf

/-- Settles O45. The deltas and the clicks of all controls are two lemmas, used at each. -/
theorem decoderEmitsInOrder : Obligations.DecoderEmitsInOrder := by
  intro s h0 h1 r click
  have hlen : ∀ e, (s.dSnap.get e).length ≤ 64 := fun e => by cases e <;> assumption
  have hraw : (decodedWith pinMap Config.debounceHold s).raw.get = r := funext (decodedWith_raw_eq _ _ s)
  have hclick : (decodedWith pinMap Config.debounceHold s).click.get = click := funext (decodedWith_click_eq _ _ s)
  have hinterval := decodedWith_interval pinMap Config.debounceHold s
  have hseed := decodedWith_dSeed pinMap Config.debounceHold s
  have hdelta := deltaFits_deltaOf pinMap Config.debounceHold hlen
  rw [hraw] at hseed
  rw [decodeInputs_snd]
  generalize decodedWith pinMap Config.debounceHold s = d at *
  have hfits : intervalFits d.interval = true := decide_eq_true (by rw [hinterval]; omega)
  have hwf : ∀ i ∈ emittedOps s.dRst s.dClk d, i.wellFormed = true ∧ emitRank i < 22 :=
    fun i hi => ⟨wellFormed_of_mem_emittedOps hfits hdelta hi, emitRank_lt_of_mem hi⟩
  refine ⟨emittedOps s.dRst s.dClk d, ?_, hwf, emittedOps_pairwise _ _ d, reset_mem_emittedOps,
    fun n => hinterval ▸ tick_mem_emittedOps, fun x => hseed ▸ deltaOp_mem_emittedOps (c := .seed), ?_⟩
  · rw [emitWords_eq, List.map_map]
    exact List.map_congr_left fun i hi => decode_opWordOf (hwf i hi).1 (hwf i hi).2
  · rw [← hraw, ← hclick]
    exact ⟨clickOp_mem_emittedOps (c := .seed), fun _ => deltaOp_mem_emittedOps (c := .length),
      clickOp_mem_emittedOps (c := .length), fun k _ => deltaOp_mem_emittedOps (c := .offset k),
      fun k => clickOp_mem_emittedOps (c := .offset k), fun k _ => deltaOp_mem_emittedOps (c := .steps k),
      fun k => clickOp_mem_emittedOps (c := .steps k)⟩

end Sys2Proof.Machine
end

section
/-! The playhead operations: TICK's result, and the playheads it leaves (spec/42_sequencer.md R172, R173, R195). -/

namespace Sys2Proof.Machine

/-- The global playhead after a Tick, as a number that wraps at 32 bits (R172). -/
theorem toNat_nextGph (s : State) :
    (nextGph s).toNat = if s.resetArmed = true then 0 else (s.gph.toNat + 1) % 2 ^ 32 := by
  unfold nextGph
  split
  · rfl
  · exact BitVec.toNat_add s.gph 1

/-- Settles O16. -/
theorem tickResult : Obligations.TickResult :=
  fun _ s _ hf => ⟨_, guarded_running hf _, rfl, BitVec.toNat_add s.tickCount 1, toNat_nextGph s⟩

/-- A Tick puts each playhead where the track's policy says, from the counters it leaves and the lengths it finds. -/
theorem exec_tick_tph {n : Nat} {s t : State} (h : exec (.tick n) s = .next t) (k : Track) :
    t.tph.get k =
      trackPlayhead (s.sync.get k) t.gph t.tickCount s.params.patternLength (s.params.length.get k) := by
  obtain ⟨-, ⟨⟩⟩ := guarded_eq_next.mp h
  exact PerTrack.get_ofFn _ k

theorem exec_tick_frame {n : Nat} {s t : State} (h : exec (.tick n) s = .next t) :
    t.params = s.params ∧ t.sync = s.sync := by
  obtain ⟨-, ⟨⟩⟩ := guarded_eq_next.mp h
  exact ⟨rfl, rfl⟩

/-- Settles O17: `trackPlayhead`, policy by policy. -/
theorem playheadLaws : Obligations.PlayheadLaws := by
  refine ⟨fun n s t k h => ?_, fun s t h => ?_⟩
  · obtain ⟨hparams, hsync⟩ := exec_tick_frame h
    have htph := exec_tick_tph h k
    exact ⟨hparams, hsync, fun hp => by rw [htph, hp, trackPlayhead], fun hp => by rw [htph, hp, trackPlayhead],
      fun hp => by rw [htph, hp, trackPlayhead]⟩
  · obtain ⟨-, ⟨⟩⟩ := guarded_eq_next.mp h
    exact ⟨rfl, rfl⟩

end Sys2Proof.Machine
end

section
/-! The parameter operations, an equation for each branch (spec/42_sequencer.md R174 to R181), and the edits they
make. -/

namespace Sys2Proof.Machine

/-! ### SEED (R174) -/

theorem exec_seed_fate {s : State} (hf : s.fault = none) (hm : s.mode = .fate) (d : Int) :
    exec (.seed d) s = .next (accept (fateRandomize s)) := by
  rw [exec, execSeed, guarded_running hf, if_pos hm]

theorem exec_seed_taken {s : State} (hf : s.fault = none) (hm : s.mode ≠ .fate) {d : Int} {v : Nat}
    (hv : (s.params.seed : Int) + d = v) (hmax : v ≤ 9999) :
    exec (.seed d) s = .next
      { s with params := { s.params with seed := v }, regen := true, mode := .seed, acted := true } := by
  have hrange : (0 : Int) ≤ v ∧ (v : Int) ≤ seedMax := by simp only [seedMax]; omega
  rw [exec, execSeed, guarded_running hf, if_neg hm]
  dsimp only
  rw [hv, if_pos hrange]
  rfl

theorem exec_seed_rejected {s : State} (hf : s.fault = none) (hm : s.mode ≠ .fate) {d : Int}
    (hv : (s.params.seed : Int) + d < 0 ∨ 9999 < (s.params.seed : Int) + d) : exec (.seed d) s = .next s := by
  rw [exec, execSeed, guarded_running hf, if_neg hm]
  exact congrArg _ (if_neg (by simp only [seedMax]; omega))

/-- Settles O19. -/
theorem seedEdit : Obligations.SeedEdit :=
  fun _ _ hf hm => ⟨fun _ hv hmax => exec_seed_taken hf hm hv hmax, exec_seed_rejected hf hm⟩

/-! ### SEED in Fate mode (R192, R193) -/

/-- A length a Fate draw admits is a power of two or an entry of `FATE_LENGTHS` in range. -/
theorem mem_fateLengthSet_cases {n : Nat} (h : n ∈ fateLengthSet) :
    n ∈ [2, 4, 8, 16, 32, 64] ∨ (n ∈ Config.rawFateLengths ∧ 2 ≤ n ∧ n ≤ 64) := by
  refine (List.mem_append.mp h).imp_right fun hfate => ?_
  obtain ⟨hraw, hdomain⟩ := List.mem_filter.mp hfate
  exact ⟨hraw, of_decide_eq_true (Bool.and_eq_true_iff.mp hdomain).1⟩

theorem fateParams_length_mem (i : Nat) (p : Params) (k : Track) : (fateParams i p).length.get k ∈ fateLengthSet := by
  rw [fateParams, PerTrack.get_ofFn]
  exact drawLength_mem _

theorem fateParams_seed_le (i : Nat) (p : Params) : (fateParams i p).seed ≤ 9999 :=
  Nat.le_of_lt_succ (Nat.mod_lt _ (by decide))

theorem fateParams_steps_le (i : Nat) (p : Params) (k : Track) :
    (fateParams i p).steps.get k ≤ (fateParams i p).length.get k := by
  simp only [fateParams, PerTrack.get_ofFn]
  exact Nat.le_of_lt_succ (Nat.mod_lt _ (Nat.succ_pos _))

theorem fateParams_offset_lt (i : Nat) (p : Params) (k : Track) :
    (fateParams i p).offset.get k < (fateParams i p).length.get k := by
  have hpos := (fateLengthSet_bounds (fateParams_length_mem i p k)).1
  simp only [fateParams, PerTrack.get_ofFn] at hpos ⊢
  exact Nat.mod_lt _ (by omega)

/-- Settles O20: each draw lies in its set, whichever free value makes it. -/
theorem fateDrawsStayInTheirSets : Obligations.FateDrawsStayInTheirSets :=
  fun d _ hf hm => ⟨_, exec_seed_fate hf hm d, rfl, rfl, fateParams_seed_le _ _, fun k =>
    ⟨mem_fateLengthSet_cases (fateParams_length_mem _ _ k), fateParams_steps_le _ _ k, fateParams_offset_lt _ _ k⟩⟩

/-! ### The clicks (R175, R177, R179, R181) -/

theorem toggleMode_of_eq {a : Mode} {s : State} (h : s.mode = a) (p : Mode) :
    toggleMode a p s = { s with mode := p, acted := true } := by
  rw [toggleMode, if_pos h]

theorem toggleMode_of_ne {a : Mode} {s : State} (h : s.mode ≠ a) (p : Mode) :
    toggleMode a p s = { s with mode := a, acted := true } := by
  rw [toggleMode, if_neg h]

theorem exec_seedClick_running {s : State} (hf : s.fault = none) :
    exec .seedClick s = .next (toggleMode .fate .seed s) := guarded_running hf _

theorem exec_lengthClick_running {s : State} (hf : s.fault = none) : exec .lengthClick s = .next s :=
  guarded_running hf _

theorem exec_offsetClick_running {s : State} (hf : s.fault = none) (k : Track) :
    exec (.offsetClick k) s = .next (toggleMode (.lfo k) (.offset k) s) := guarded_running hf _

theorem exec_stepsClick_running {s : State} (hf : s.fault = none) (k : Track) :
    exec (.stepsClick k) s = .next (toggleMode (.trackSync k) (.steps k) s) := guarded_running hf _

/-- Settles O21: each click is a toggle between its two displays. -/
theorem clicksToggleMode : Obligations.ClicksToggleMode := by
  intro k s hf
  rw [exec_seedClick_running hf, exec_offsetClick_running hf, exec_stepsClick_running hf]
  exact ⟨fun h => congrArg _ (toggleMode_of_eq h _), fun h => congrArg _ (toggleMode_of_ne h _),
    fun h => congrArg _ (toggleMode_of_eq h _), fun h => congrArg _ (toggleMode_of_ne h _),
    fun h => congrArg _ (toggleMode_of_eq h _), fun h => congrArg _ (toggleMode_of_ne h _)⟩

/-! ### LENGTH (R176) -/

theorem exec_length_taken {s : State} (hf : s.fault = none) {d : Int} {v : Nat}
    (hv : (s.params.patternLength : Int) + d = v) (hmin : 2 ≤ v) (hmax : v ≤ 64) :
    exec (.length d) s = .next
      { s with params := { s.params with patternLength := v }, regen := true, mode := .length, acted := true } := by
  have hrange : (plenMin : Int) ≤ v ∧ (v : Int) ≤ plenMax := by simp only [plenMin, plenMax]; omega
  rw [exec, execLength, guarded_running hf]
  dsimp only
  rw [hv, if_pos hrange]
  rfl

theorem exec_length_rejected {s : State} (hf : s.fault = none) {d : Int}
    (hv : (s.params.patternLength : Int) + d < 2 ∨ 64 < (s.params.patternLength : Int) + d) :
    exec (.length d) s = .next s := by
  rw [exec, execLength, guarded_running hf]
  exact congrArg _ (if_neg (by simp only [plenMin, plenMax]; omega))

/-- Settles O22. -/
theorem lengthOperations : Obligations.LengthOperations :=
  fun _ _ hf => ⟨fun _ => exec_length_taken hf, exec_length_rejected hf, exec_lengthClick_running hf⟩

/-! ### OFFSET (R178) -/

theorem exec_offset_lfo {s : State} (hf : s.fault = none) {k : Track} (hm : s.mode = .lfo k) (d : Int) :
    exec (.offset k d) s = .next
      { s with lfoMode := s.lfoMode.set k (cycleLfo (s.lfoMode.get k) d), regen := true, acted := true } := by
  rw [exec, execOffset, guarded_running hf, if_pos hm]
  rfl

theorem exec_offset_edit {s : State} (hf : s.fault = none) {k : Track} (hm : s.mode ≠ .lfo k) (d : Int) :
    exec (.offset k d) s = .next
      { s with
        params :=
          { s.params with
            offset := s.params.offset.set k (addMod (s.params.offset.get k) d (s.params.length.get k)) }
        regen := true, mode := .offset k, acted := true } := by
  rw [exec, execOffset, guarded_running hf, if_neg hm]
  rfl

/-- `addMod` is the Euclidean remainder (spec/00_scope.md R19). -/
theorem cast_addMod (x : Nat) (d : Int) {m : Nat} (h : 0 < m) : (addMod x d m : Int) = ((x : Int) + d) % (m : Int) :=
  Int.toNat_of_nonneg (Int.emod_nonneg _ (by omega))

/-- Settles O23. -/
theorem offsetEdit : Obligations.OffsetEdit :=
  fun _ d _ hf => ⟨fun hm => ⟨_, exec_offset_lfo hf hm d, lfoCode_cycleLfo _ d⟩,
    fun hm hlen => ⟨_, exec_offset_edit hf hm d, cast_addMod _ d hlen⟩⟩

/-! ### STEPS (R180, R182, R183) -/

theorem exec_steps_sync {s : State} (hf : s.fault = none) {k : Track} (hm : s.mode = .trackSync k) (d : Int) :
    exec (.steps k d) s = .next { s with sync := s.sync.set k (cycleSync (s.sync.get k) d), acted := true } := by
  rw [exec, execSteps, guarded_running hf, if_pos hm]
  rfl

theorem exec_steps_edit {s : State} (hf : s.fault = none) {k : Track} (hm : s.mode ≠ .trackSync k) (d : Int) :
    exec (.steps k d) s = .next
      { s with params := steppedParams k d s.params, regen := true, mode := .steps k, acted := true } := by
  rw [exec, execSteps, guarded_running hf, if_neg hm]
  rfl

theorem stepMany_eq_iterate (up : Bool) (n : Nat) (p : Nat × Nat) : stepMany up n p = (stepOne up)^[n] p := by
  induction n generalizing p with
  | zero => rfl
  | succ n ih => rw [stepMany, ih, Function.iterate_succ_apply]

/-- Settles O24. -/
theorem stepsEdit : Obligations.StepsEdit :=
  fun _ d _ hf => ⟨fun hm => ⟨_, exec_steps_sync hf hm d, syncCode_cycleSync _ d⟩,
    fun hm => ⟨_, _, stepMany_eq_iterate _ d.natAbs _, exec_steps_edit hf hm d⟩⟩

/-- The clamps of R182 on a pair of steps and length: each to its bounds, then the steps to the length. -/
def clampPair (n len : Int) : Nat × Nat :=
  ((min (clampInt n 0 stepsMax) (clampInt len tlenMin tlenMax)).toNat, (clampInt len tlenMin tlenMax).toNat)

/-- The clamps leave a legal pair as it is. -/
theorem clampPair_of_legal {x y : Int} {n len : Nat} (hx : x = n) (hy : y = len) (hmin : 2 ≤ len) (hmax : len ≤ 64)
    (hn : n ≤ len) : clampPair x y = (n, len) := by
  simp only [clampPair, clampInt, tlenMin, tlenMax, stepsMax, Prod.mk.injEq]
  omega

/-- A unit step up wraps past the length, and then clamps. -/
theorem stepOne_up (n len : Nat) :
    stepOne true (n, len) = if len < n + 1 then clampPair 0 (len + 1) else clampPair (n + 1) len := by
  have hwrap : (n : Int) + 1 > len ↔ len < n + 1 := by omega
  simp only [stepOne, if_true, hwrap, decide_eq_true_eq]
  split <;> rfl

/-- A unit step down wraps below 0, and then clamps. -/
theorem stepOne_down (n len : Nat) :
    stepOne false (n, len) = if n = 0 then clampPair (len - 1) (len - 1) else clampPair (n - 1) len := by
  have hwrap : (n : Int) - 1 < 0 ↔ n = 0 := by omega
  simp only [stepOne, Bool.false_eq_true, if_false, hwrap, decide_eq_true_eq]
  split <;> rfl

/-- Settles O25. The clamps act only at the wraps that leave the bounds: up from 64, and down from a length of 2. -/
theorem unitStepWrapsThenClamps : Obligations.UnitStepWrapsThenClamps := by
  refine ⟨fun n len hmin hmax hn => ⟨?_, ?_⟩, rfl, rfl, rfl, rfl⟩
  · rw [stepOne_up]
    by_cases hlt : n < len
    · rw [if_neg (by omega), if_pos hlt]
      exact clampPair_of_legal rfl rfl hmin hmax hlt
    · rw [if_pos (by omega), if_neg hlt]
      split
      next h64 => exact clampPair_of_legal rfl rfl (by omega) h64 (Nat.zero_le _)
      next h64 =>
        obtain rfl : len = 64 := by omega
        rfl
  · rw [stepOne_down]
    by_cases hpos : 0 < n
    · rw [if_neg (by omega), if_pos hpos]
      exact clampPair_of_legal (by omega) rfl hmin hmax (by omega)
    · rw [if_pos (by omega), if_neg hpos]
      split
      next h2 => exact clampPair_of_legal (by omega) (by omega) (by omega) (by omega) (Nat.le_refl _)
      next h2 =>
        obtain rfl : len = 2 := by omega
        rfl

end Sys2Proof.Machine
end

section
/-! Which operations are accepted, and the bounds of Params (spec/42_sequencer.md R171, R196). -/

namespace Sys2Proof.Machine

/-- What a user operation needs to take effect (R171, R174, R176, R177). -/
def TakesEffect (i : Instr) (s : State) : Prop :=
  i ≠ .lengthClick ∧
  (∀ d, i = .seed d → s.mode = .fate ∨ (0 ≤ (s.params.seed : Int) + d ∧ (s.params.seed : Int) + d ≤ 9999)) ∧
  (∀ d, i = .length d → 2 ≤ (s.params.patternLength : Int) + d ∧ (s.params.patternLength : Int) + d ≤ 64)

theorem takesEffect_seed {d : Int} {s : State} :
    TakesEffect (.seed d) s ↔
      s.mode = .fate ∨ (0 ≤ (s.params.seed : Int) + d ∧ (s.params.seed : Int) + d ≤ 9999) := by
  simp [TakesEffect]

theorem takesEffect_length {d : Int} {s : State} :
    TakesEffect (.length d) s ↔
      2 ≤ (s.params.patternLength : Int) + d ∧ (s.params.patternLength : Int) + d ≤ 64 := by
  simp [TakesEffect]

theorem not_takesEffect_lengthClick (s : State) : ¬ TakesEffect .lengthClick s := fun h => h.1 rfl

/-- An instruction takes place only in a machine without fault. -/
theorem fault_of_exec_eq_next {i : Instr} {s t : State} (h : exec i s = .next t) : s.fault = none := by
  cases hf : s.fault with
  | none => rfl
  | some c => rw [exec_faulted hf] at h; cases h

/-- A user operation that takes no effect changes nothing. -/
theorem exec_of_not_takesEffect {i : Instr} {s : State} (hf : s.fault = none) (hi : isUserOp i = true)
    (h : ¬ TakesEffect i s) : exec i s = .next s := by
  cases i with
  | seed d =>
    rw [takesEffect_seed, not_or] at h
    exact exec_seed_rejected hf h.1 (by omega)
  | length d =>
    rw [takesEffect_length] at h
    exact exec_length_rejected hf (by omega)
  | lengthClick => exact exec_lengthClick_running hf
  | seedClick | offset k d | offsetClick k | steps k d | stepsClick k => exact absurd ⟨nofun, nofun, nofun⟩ h
  | _ => cases hi

/-- A user operation that takes effect is accepted, and keeps Params legal. -/
theorem exec_of_takesEffect {i : Instr} {s : State} (hf : s.fault = none) (hi : isUserOp i = true)
    (h : TakesEffect i s) :
    ∃ t, exec i s = .next t ∧ t.acted = true ∧ (paramsLegal s.params → paramsLegal t.params) := by
  cases i with
  | seed d =>
    by_cases hm : s.mode = .fate
    · exact ⟨_, exec_seed_fate hf hm d, rfl, fateParams_legal _ _⟩
    · obtain ⟨hmin, hmax⟩ := (takesEffect_seed.mp h).resolve_left hm
      obtain ⟨v, hv⟩ := Int.eq_ofNat_of_zero_le hmin
      have hseed : v ≤ 9999 := by omega
      exact ⟨_, exec_seed_taken hf hm hv hseed, rfl, fun ⟨_, hrest⟩ => ⟨hseed, hrest⟩⟩
  | length d =>
    obtain ⟨hmin, hmax⟩ := takesEffect_length.mp h
    obtain ⟨v, hv⟩ := Int.eq_ofNat_of_zero_le (by omega : 0 ≤ (s.params.patternLength : Int) + d)
    have hlo : 2 ≤ v := by omega
    have hhi : v ≤ 64 := by omega
    exact ⟨_, exec_length_taken hf hv hlo hhi, rfl, fun ⟨hseed, _, _, htracks⟩ => ⟨hseed, hlo, hhi, htracks⟩⟩
  | lengthClick => exact absurd h (not_takesEffect_lengthClick s)
  | offset k d =>
    by_cases hm : s.mode = .lfo k
    · exact ⟨_, exec_offset_lfo hf hm d, rfl, id⟩
    · exact ⟨_, exec_offset_edit hf hm d, rfl, offsetParams_legal k d⟩
  | steps k d =>
    by_cases hm : s.mode = .trackSync k
    · exact ⟨_, exec_steps_sync hf hm d, rfl, id⟩
    · exact ⟨_, exec_steps_edit hf hm d, rfl, steppedParams_legal k d s.params⟩
  | seedClick => exact ⟨_, exec_seedClick_running hf, rfl, id⟩
  | offsetClick k => exact ⟨_, exec_offsetClick_running hf k, rfl, id⟩
  | stepsClick k => exact ⟨_, exec_stepsClick_running hf k, rfl, id⟩
  | _ => cases hi

/-- An instruction that is no user operation neither edits Params nor is accepted. -/
theorem exec_frame_of_not_userOp {i : Instr} {s t : State} (hi : isUserOp i = false) (h : exec i s = .next t) :
    t.params = s.params ∧ t.acted = s.acted := by
  cases i with
  | tick _ | reset | gcmdReserved =>
    obtain ⟨-, ⟨⟩⟩ := guarded_eq_next.mp h
    exact ⟨rfl, rfl⟩
  | retain =>
    obtain ⟨-, ⟨⟩⟩ := guarded_eq_next.mp h
    rw [gateOff_eq]
    split <;> exact ⟨rfl, rfl⟩
  | set =>
    obtain ⟨-, ⟨⟩⟩ := guarded_eq_next.mp h
    have heq := (gateOn_frame s.gateTrk s).2
    exact ⟨(congrArg State.params heq :), (congrArg State.acted heq :)⟩
  | clear =>
    obtain ⟨-, ⟨⟩⟩ := guarded_eq_next.mp h
    rw [gateOff_eq]
    exact ⟨rfl, rfl⟩
  | clk _ | rst | rstclk _ | exp0 _ | exp1 _ =>
    have heq := outsideCapture_of_exec_capture rfl h
    exact ⟨(congrArg State.params heq :), (congrArg State.acted heq :)⟩
  | _ => cases hi

/-- A user operation takes effect and is accepted, or changes nothing; either way it keeps Params legal. -/
theorem exec_userOp_cases {i : Instr} {s t : State} (hi : isUserOp i = true) (h : exec i s = .next t) :
    (TakesEffect i s ∧ t.acted = true ∧ (paramsLegal s.params → paramsLegal t.params)) ∨
      (¬ TakesEffect i s ∧ t = s) := by
  have hf := fault_of_exec_eq_next h
  by_cases heff : TakesEffect i s
  · obtain ⟨u, hu, hresult⟩ := exec_of_takesEffect hf hi heff
    obtain rfl : t = u := Host.Outcome.next.inj (h.symm.trans hu)
    exact .inl ⟨heff, hresult⟩
  · exact .inr ⟨heff, Host.Outcome.next.inj (h.symm.trans (exec_of_not_takesEffect hf hi heff))⟩

/-- Settles O27, by whether the instruction is a user operation and whether it takes effect. -/
theorem onlyEffectiveUserOperationsAreAccepted : Obligations.OnlyEffectiveUserOperationsAreAccepted := by
  intro i s t h hacted
  cases hi : isUserOp i with
  | false =>
    have hkept : t.acted = false := (exec_frame_of_not_userOp hi h).2.trans hacted
    exact ⟨iff_of_false (by rw [hkept]; nofun) nofun, nofun⟩
  | true =>
    rcases exec_userOp_cases hi h with ⟨heff, haccept, -⟩ | ⟨heff, rfl⟩
    · exact ⟨iff_of_true haccept ⟨rfl, heff⟩, fun _ hno => by rw [haccept] at hno; cases hno⟩
    · exact ⟨iff_of_false (by rw [hacted]; nofun) fun hx => heff hx.2, fun _ _ => rfl⟩

/-- Every instruction keeps Params legal. -/
theorem exec_params_legal {i : Instr} {s t : State} (h : exec i s = .next t) (hp : paramsLegal s.params) :
    paramsLegal t.params := by
  cases hi : isUserOp i with
  | false => rwa [(exec_frame_of_not_userOp hi h).1]
  | true =>
    rcases exec_userOp_cases hi h with ⟨-, -, hlegal⟩ | ⟨-, rfl⟩
    · exact hlegal hp
    · exact hp

theorem andThen_eq_next {o : Out} {f : State → Out} {t : State} :
    andThen o f = .next t ↔ ∃ u, o = .next u ∧ f u = .next t := by
  cases o <;> simp [andThen]

/-- What every instruction keeps, a sequence of instructions keeps. -/
theorem execAll_keeps {P : State → Prop} (hexec : ∀ i s t, exec i s = .next t → P s → P t) :
    ∀ (is : List Instr) {s t : State}, execAll is s = .next t → P s → P t
  | [], _, _, h, hs => Host.Outcome.next.inj h ▸ hs
  | i :: is, s, _, h, hs => by
    obtain ⟨u, hu, hrest⟩ := andThen_eq_next.mp h
    exact execAll_keeps hexec is hrest (hexec i s u hu hs)

/-- Settles O26. -/
theorem paramsStayInBounds : Obligations.ParamsStayInBounds := by
  intro is s t h hs
  rw [← paramsLegal_iff] at hs ⊢
  exact execAll_keeps (P := fun u => paramsLegal u.params) (fun _ _ _ => exec_params_legal) is h hs

end Sys2Proof.Machine
end

section
/-! The end of `Update` (spec/42_sequencer.md R170, R190, R194). -/

namespace Sys2Proof.Machine

/-- The end of `Update`, field by field: what it recomputes where a regeneration is owed, and the idle stamp where an
operation was accepted. -/
theorem updateEnd_eq (s : State) :
    updateEnd s =
      { s with
        patterns := if s.regen = true then patternsOf s.params else s.patterns
        table := if s.regen = true then tablesOf s.params else s.table
        dpt := if s.regen = true then dptOf s.params else s.dpt
        randIdx := if s.regen = true then PerTrack.const 0 else s.randIdx
        lastAction := if s.acted = true then s.now else s.lastAction
        regen := false, acted := false, pos := .time } := by
  unfold updateEnd
  cases s.regen <;> cases s.acted <;> rfl

/-- At line 5 with the operation queue empty, the step is the end of `Update`. -/
theorem step_updateEnd {s : State} (hf : s.fault = none) (hpos : s.pos = .update) (hstim : s.stim = [])
    (hq : s.opq = []) : step s = .next (updateEnd s) := by
  have hm : midPass s.pos = true := by rw [hpos]; rfl
  have hfetch : fetch s = none := by simp [fetch, nextMove_of_stim_nil hm hstim, hpos, hq]
  rw [step_passLine hf hm hstim hfetch, passLine, hpos]

/-- Settles O28: with neither mark set, each field is written with its own value. -/
theorem emptyUpdateWritesNothing : Obligations.EmptyUpdateWritesNothing := by
  intro s hf hpos hstim hq hregen hacted hticked
  have hend : updateEnd s = { s with pos := .time } := by simp [updateEnd_eq, hregen, hacted]
  exact ⟨_, (step_updateEnd hf hpos hstim hq).trans (congrArg _ hend), hticked, rfl⟩

/-- Settles O29. -/
theorem updateEndRegenerates : Obligations.UpdateEndRegenerates := by
  intro s hf hpos hstim hq
  refine ⟨_, (step_updateEnd hf hpos hstim hq).trans (congrArg _ (updateEnd_eq s)), rfl, fun hregen => ?_,
    fun hregen k => ?_⟩
  · simp only [hregen, Bool.false_eq_true, if_false, and_self]
  · simp only [hregen, if_true]
    exact ⟨PerTrack.get_ofFn _ k, PerTrack.get_ofFn _ k, by rw [dptOf_get, toNat_distancePerTick],
      PerTrack.get_const 0 k⟩

end Sys2Proof.Machine
end

section
/-! Line 6 of a pass: the idle revert and the four phases (spec/43_timebase.md R210 to R214). -/

namespace Sys2Proof.Machine

/-! ### The idle revert (R210) -/

theorem timeHz_pos : 0 < timeHz := Nat.succ_pos _

theorem idleMode_of_elapsed {timeout : Nat} {now last : Time} {m : Mode} (hm : m ≠ .run)
    (h : last.toNat + timeout ≤ now.toNat) : idleMode timeout now last m = .run :=
  if_pos ⟨hm, h⟩

theorem idleMode_of_recent {timeout : Nat} {now last : Time} {m : Mode}
    (h : m = .run ∨ now.toNat < last.toNat + timeout) : idleMode timeout now last m = m :=
  if_neg fun ⟨hm, hle⟩ => h.elim hm hle.not_gt

/-! ### Interpolation (R212) -/

theorem interpolation_of_predicted {e p d : Nat} (hp : 0 < p) : interpolation e p d = min e p * d / p := if_pos hp

@[simp] theorem interpolation_unpredicted (e d : Nat) : interpolation e 0 d = 0 := rfl

/-- The interpolation is at most one tick's distance. -/
theorem interpolation_le (e p d : Nat) : interpolation e p d ≤ d := by
  obtain rfl | hp := p.eq_zero_or_pos
  · simp
  · calc interpolation e p d
      _ = min e p * d / p := interpolation_of_predicted hp
      _ ≤ p * d / p := Nat.div_le_div_right (Nat.mul_le_mul_right d (min_le_right e p))
      _ = d := Nat.mul_div_cancel_left d hp

theorem interpolation_mono {e e' : Nat} (h : e ≤ e') (p d : Nat) : interpolation e p d ≤ interpolation e' p d := by
  obtain rfl | hp := p.eq_zero_or_pos
  · simp
  · rw [interpolation_of_predicted hp, interpolation_of_predicted hp]
    exact Nat.div_le_div_right (Nat.mul_le_mul_right d (min_le_min_right p h))

/-! ### Phases (R212, R213) -/

theorem toNat_phaseOf (now last predicted : Time) (tph : Nat) (dpt : BitVec 32) :
    (phaseOf now last predicted tph dpt).toNat =
      (tph * dpt.toNat + interpolation (now.toNat - last.toNat) predicted.toNat dpt.toNat) % 2 ^ 32 :=
  BitVec.toNat_ofNat _ _

/-- A playhead below the length has a whole tick's distance left for the interpolation. -/
theorem phaseSum_le {tph len : Nat} (h : tph < len) (e p d : Nat) : tph * d + interpolation e p d ≤ len * d :=
  calc tph * d + interpolation e p d
    _ ≤ tph * d + d := Nat.add_le_add_left (interpolation_le e p d) _
    _ = (tph + 1) * d := (Nat.succ_mul tph d).symm
    _ ≤ len * d := Nat.mul_le_mul_right d h

theorem length_mul_distance_le {len d : Nat} (hd : d = 4294967295 / len) : len * d ≤ 4294967295 :=
  hd ▸ Nat.mul_div_le 4294967295 len

/-- With the playhead in range the phase is the sum itself. -/
theorem toNat_phaseOf_inRange (now last predicted : Time) {tph len : Nat} {dpt : BitVec 32} (h : tph < len)
    (hd : dpt.toNat = 4294967295 / len) :
    (phaseOf now last predicted tph dpt).toNat =
      tph * dpt.toNat + interpolation (now.toNat - last.toNat) predicted.toNat dpt.toNat := by
  have hsum := (phaseSum_le h (now.toNat - last.toNat) predicted.toNat dpt.toNat).trans (length_mul_distance_le hd)
  rw [toNat_phaseOf, Nat.mod_eq_of_lt (hsum.trans_lt (by decide))]

/-! ### The obligations -/

theorem step_time {s : State} (hf : s.fault = none) (hpos : s.pos = .time) (hstim : s.stim = []) :
    step s = .next (timeLine s) := by
  have hm : midPass s.pos = true := by rw [hpos]; rfl
  have hfetch : fetch s = none := by simp [fetch, nextMove_of_stim_nil hm hstim, hpos]
  rw [step_passLine hf hm hstim hfetch, passLine, hpos]

theorem timeLine_phase_get (s : State) (k : Track) :
    (timeLine s).phase.get k = phaseOf s.now s.lastTickTime s.predicted (s.tph.get k) (s.dpt.get k) :=
  PerTrack.get_ofFn _ k

/-- Settles O39. The timeout is positive, so the elapsed time reaches it only where `now` is past the last action and
the difference is not cut at 0. -/
theorem timeStepResult : Obligations.TimeStepResult := by
  intro s hf hpos hstim
  refine ⟨timeLine s, step_time hf hpos hstim, rfl, fun hmode helapsed => ?_, idleMode_of_recent, fun k hp => ?_,
    fun k hp => ?_⟩
  · have hpositive := timeHz_pos
    have hreached : s.lastAction.toNat + 5 * timeHz ≤ s.now.toNat := by omega
    exact idleMode_of_elapsed hmode hreached
  · have hunpredicted : s.predicted.toNat = 0 := congrArg BitVec.toNat hp
    rw [timeLine_phase_get, toNat_phaseOf, hunpredicted, interpolation_unpredicted, Nat.add_zero]
  · have hpredicted : 0 < s.predicted.toNat := Nat.pos_of_ne_zero (BitVec.toNat_ne_iff_ne.mpr hp)
    rw [timeLine_phase_get, toNat_phaseOf, interpolation_of_predicted hpredicted]

/-- Settles O40. -/
theorem phaseDoesNotWrapInRange : Obligations.PhaseDoesNotWrapInRange :=
  fun now last predicted _ _ _ htph hdpt =>
    ⟨phaseSum_le htph _ _ _, length_mul_distance_le hdpt, toNat_phaseOf_inRange now last predicted htph hdpt⟩

/-- Settles O41: neither phase wraps, and the interpolation grows with the elapsed time. -/
theorem phaseAdvancesBetweenTicks : Obligations.PhaseAdvancesBetweenTicks := by
  intro now later last predicted tph len dpt htph hdpt hlater
  rw [toNat_phaseOf_inRange now last predicted htph hdpt, toNat_phaseOf_inRange later last predicted htph hdpt]
  exact Nat.add_le_add_left (interpolation_mono (Nat.sub_le_sub_right hlater _) _ _) _

end Sys2Proof.Machine
end

section
/-! SET where its clear time fits 64 bits (spec/44_lfo.md R227, R228, spec/45_gate.md R244). -/

namespace Sys2Proof.Machine

/-- A clear time that fits 64 bits is the exact sum, and leaves the free values alone. -/
theorem gateOn_of_inRange {t : Track} {s : State} (h : clearSum s.now s.predicted (s.duty.get t) < 2 ^ 64) :
    gateOn t s =
      lfoGate t true
        { s with
          level := s.level.set t true
          clearAt := s.clearAt.set t (some (BitVec.ofNat 64 (clearSum s.now s.predicted (s.duty.get t)))) } := by
  rw [gateOn, timeOfSum, if_pos h, if_pos h]
  rfl

/-- A gate driven active takes no sample where it is active already, or where its track is not in Random mode (R228). -/
theorem lfoGate_true_of_not_sampling {t : Track} {s : State}
    (h : s.gateHigh.get t = true ∨ s.lfoMode.get t ≠ .random) :
    lfoGate t true s = { s with gateHigh := s.gateHigh.set t true } := by
  rw [lfoGate_true, if_neg]
  rintro ⟨hlow, hrandom⟩
  rcases h with hhigh | hother
  · rw [hlow] at hhigh
    cases hhigh
  · exact hother hrandom

/-- A rising edge in Random mode takes the sample and emits it (R227, R228). -/
theorem lfoGate_true_of_sampling {t : Track} {s : State} (hlow : s.gateHigh.get t = false)
    (hrandom : s.lfoMode.get t = .random) :
    lfoGate t true s =
      { s with
        gateHigh := s.gateHigh.set t true
        lastOut := s.lastOut.set t (some (sampledValue s t))
        dac := s.dac ++ [(t, sampledValue s t)]
        randIdx := s.randIdx.set t (s.randIdx.get t + 1) } := by
  rw [lfoGate_true, if_pos ⟨hlow, hrandom⟩]

/-- With legal Params a track samples at least one and at most 64 entries: its steps do not pass its length. -/
theorem sampledCount_bounds {s : State} (h : paramsLegal s.params) (t : Track) :
    1 ≤ sampledCount s t ∧ sampledCount s t ≤ 64 := by
  obtain ⟨-, -, -, htracks⟩ := (paramsLegal_iff _).mp h
  obtain ⟨hmin, hmax, hsteps, -⟩ := htracks t
  unfold sampledCount
  split <;> omega

/-- With legal Params a Random sample is the table's entry at the index taken modulo the entries sampled: that index is
below 64, and the model's own bound does nothing (R227). -/
theorem getElem?_table_eq_sampledValue {s : State} (h : paramsLegal s.params) (t : Track) :
    (s.table.get t).toList[s.randIdx.get t % sampledCount s t]? = some (sampledValue s t) := by
  obtain ⟨hmin, hmax⟩ := sampledCount_bounds h t
  have hindex : s.randIdx.get t % sampledCount s t < 64 := (Nat.mod_lt _ hmin).trans_le hmax
  simp [sampledValue, Nat.mod_eq_of_lt hindex, hindex]

/-- Settles O31, by whether the edge takes a Random sample. -/
theorem setResult : Obligations.SetResult := by
  intro s hfault hlegal hrange
  have hset := (exec_set_running hfault).trans (congrArg _ (gateOn_of_inRange hrange))
  refine ⟨_, (BitVec.toNat_ofNat _ _).trans (Nat.mod_eq_of_lt hrange), fun hquiet => ?_, fun hlow hrandom => ?_⟩
  · exact hset.trans (congrArg _ (lfoGate_true_of_not_sampling hquiet))
  · exact ⟨_, getElem?_table_eq_sampledValue hlegal _,
      hset.trans (congrArg _ (lfoGate_true_of_sampling hlow hrandom))⟩

end Sys2Proof.Machine
end

section
/-! The waveforms, and the sample one track emits at a phase (spec/44_lfo.md R221, R222). -/

namespace Sys2Proof.Machine

/-! ### Waveforms (R221) -/

theorem toNat_topBits (q : BitVec 32) : (topBits q).toNat = q.toNat / 2 ^ 20 := by
  have hlt : q.toNat / 2 ^ 20 < 2 ^ 12 := by omega
  rw [topBits, BitVec.toNat_setWidth, BitVec.toNat_ushiftRight, Nat.shiftRight_eq_div_pow, Nat.mod_eq_of_lt hlt]

/-- The falling saw: the top bits of a complement are the complement of the top bits. -/
theorem toNat_topBits_complement (q : BitVec 32) :
    (topBits (0xFFFFFFFF - q)).toNat = 4095 - q.toNat / 2 ^ 20 := by
  have hsub : (0xFFFFFFFF - q).toNat = 4294967295 - q.toNat := by bv_omega
  rw [toNat_topBits, hsub]
  omega

/-- A phase add is an exact sum narrowed to 32 bits. -/
theorem add_ofNat_eq_wrap (p : BitVec 32) (n : Nat) : p + BitVec.ofNat 32 n = BitVec.ofNat 32 (p.toNat + n) := by
  rw [BitVec.ofNat_add, BitVec.ofNat_toNat, BitVec.setWidth_eq]

theorem squareOf_ofNat (n : Nat) : squareOf (BitVec.ofNat 32 n) = if n % 2 ^ 32 < 2 ^ 31 then 4095 else 0 := by
  rw [squareOf, BitVec.toNat_ofNat]

/-- Settles O36: each mode's formula at its phase add, which is 0, a quarter or a half of the phase range. -/
theorem waveformFormulas : Obligations.WaveformFormulas := by
  intro p
  have hzero : p + 0 = p := BitVec.add_zero p
  have hquarter : p + 0x40000000 = BitVec.ofNat 32 (p.toNat + 2 ^ 30) := add_ofNat_eq_wrap p _
  have hhalf : p + 0x80000000 = BitVec.ofNat 32 (p.toNat + 2 ^ 31) := add_ofNat_eq_wrap p _
  simp only [wave, phaseAdd, hzero, hquarter, hhalf, squareOf_ofNat, true_and, and_true]
  exact ⟨⟨_, rfl, toNat_topBits p⟩, ⟨_, rfl, toNat_topBits_complement p⟩, rfl⟩

/-! ### `LfoSetOffset` (R222) -/

/-- A track without a waveform emits nothing. -/
theorem lfoSetOffset_of_wave_none {t : Track} {p : BitVec 32} {s : State} (h : wave (s.lfoMode.get t) p = none) :
    lfoSetOffset t p s = s := by
  rw [lfoSetOffset, h]

/-- The last sample emitted is not emitted again. -/
theorem lfoSetOffset_of_repeat {t : Track} {p : BitVec 32} {s : State} {v : Sample}
    (hwave : wave (s.lfoMode.get t) p = some v) (hlast : s.lastOut.get t = some v) : lfoSetOffset t p s = s := by
  rw [lfoSetOffset, hwave]
  exact if_pos hlast

/-- A new sample is emitted, and becomes the last one. -/
theorem lfoSetOffset_of_new {t : Track} {p : BitVec 32} {s : State} {v : Sample}
    (hwave : wave (s.lfoMode.get t) p = some v) (hlast : s.lastOut.get t ≠ some v) :
    lfoSetOffset t p s = emitSample t v s := by
  rw [lfoSetOffset, hwave]
  exact if_neg hlast

/-- A second `LfoSetOffset` at the same phase does nothing: the first one's sample is then the last one emitted. -/
theorem lfoSetOffset_idempotent (t : Track) (p : BitVec 32) (s : State) :
    lfoSetOffset t p (lfoSetOffset t p s) = lfoSetOffset t p s := by
  rcases lfoSetOffset_cases t p s with hsame | ⟨v, hwave, -, hemit⟩
  · rw [hsame, hsame]
  · rw [hemit]
    have hlast : (emitSample t v s).lastOut.get t = some v := by simp [emitSample]
    exact lfoSetOffset_of_repeat hwave hlast

/-- Settles O37. -/
theorem setOffsetSuppressesRepeats : Obligations.SetOffsetSuppressesRepeats :=
  fun k p s => ⟨fun hrandom => lfoSetOffset_of_wave_none ((wave_eq_none _ p).mpr hrandom),
    fun _ => lfoSetOffset_of_repeat, fun _ => lfoSetOffset_of_new, lfoSetOffset_idempotent k p s⟩

end Sys2Proof.Machine
end

section
/-! Line 8 selects each track's gate command (spec/45_gate.md R240 to R243). -/

namespace Sys2Proof.Machine

/-- A pattern bit is read as true only inside the sequence (R243). -/
theorem patBit_eq_true {s : State} {t : Track} {i : Nat} :
    patBit s t i = true ↔ (s.patterns.get t)[i]? = some true := by
  rw [patBit, List.getD_eq_getElem?_getD]
  cases (s.patterns.get t)[i]? <;> simp

/-- Without a Tick in the pass, or with the playhead where it was last served, the selection is RETAIN and records
nothing (R240). -/
theorem gateSelect_of_unmoved {t : Track} {s : State}
    (h : s.ticked = false ∨ s.lastGateIndex.get t = some (s.tph.get t)) :
    gateSelect t s = { s with gateTrk := t, gateCmd := 0b00, pos := .apply } := by
  have hunmoved : ¬(s.ticked = true ∧ s.lastGateIndex.get t ≠ some (s.tph.get t)) := by
    rintro ⟨hticked, hmoved⟩
    exact h.elim (ne_false_of_eq_true hticked) hmoved
  rw [gateSelect, selectedCmd, if_neg hunmoved, if_neg hunmoved]

/-- With the playhead moved by this pass's Tick, the selection goes by the pattern bit and the mute, and records the
playhead (R240, R241, R242). -/
theorem gateSelect_of_moved {t : Track} {s : State} (hticked : s.ticked = true)
    (hmoved : s.lastGateIndex.get t ≠ some (s.tph.get t)) :
    gateSelect t s =
      { s with
        gateTrk := t
        gateCmd := if patBit s t (s.tph.get t) = true ∧ s.mute.get t = false then 0b01 else 0b10
        pos := .apply
        lastGateIndex := s.lastGateIndex.set t (some (s.tph.get t)) } := by
  rw [gateSelect, selectedCmd, if_pos ⟨hticked, hmoved⟩, if_pos ⟨hticked, hmoved⟩]

theorem step_gate {k : Track} {s : State} (hf : s.fault = none) (hpos : s.pos = .gate k) (hstim : s.stim = []) :
    step s = .next (gateSelect k s) := by
  have hm : midPass s.pos = true := by rw [hpos]; rfl
  have hfetch : fetch s = none := by simp [fetch, nextMove_of_stim_nil hm hstim, hpos]
  rw [step_passLine hf hm hstim hfetch, passLine, hpos]

/-- Settles O30, by whether the playhead moved, and then by the pattern bit and the mute. -/
theorem gateCommandSelection : Obligations.GateCommandSelection := by
  intro k s hf hpos hstim
  rw [step_gate hf hpos hstim]
  refine ⟨fun hunmoved => congrArg _ (gateSelect_of_unmoved hunmoved), fun hticked hmoved hon => ?_,
    fun hticked hmoved hoff => ?_⟩
  · have hset : patBit s k (s.tph.get k) = true ∧ s.mute.get k = false := ⟨patBit_eq_true.mpr hon.1, hon.2⟩
    rw [gateSelect_of_moved hticked hmoved, if_pos hset]
  · have hclear : ¬(patBit s k (s.tph.get k) = true ∧ s.mute.get k = false) := by
      rintro ⟨hbit, hheard⟩
      exact hoff.elim (· (patBit_eq_true.mp hbit)) (ne_true_of_eq_false hheard)
    rw [gateSelect_of_moved hticked hmoved, if_neg hclear]

end Sys2Proof.Machine
end

section
/-! CLEAR, RETAIN and the reserved gate command, and the gate's length after a SET (spec/45_gate.md R244 to R249). -/

namespace Sys2Proof.Machine

/-! ### CLEAR and RETAIN (R245, R246) -/

theorem exec_clear_running {s : State} (hf : s.fault = none) : exec .clear s = .next (gateOff s.gateTrk s) :=
  guarded_running hf _

theorem clearDue_eq_true {s : State} {t : Track} :
    clearDue s t = true ↔ ∃ c, s.clearAt.get t = some c ∧ c.toNat ≤ s.now.toNat := by
  unfold clearDue
  cases s.clearAt.get t <;> simp

/-- RETAIN drives the gate inactive where its clear time has come; at the clear time itself it has. -/
theorem exec_retain_of_due {s : State} {c : Time} (hf : s.fault = none) (hc : s.clearAt.get s.gateTrk = some c)
    (hdue : c.toNat ≤ s.now.toNat) : exec .retain s = .next (gateOff s.gateTrk s) := by
  rw [exec, execRetain, guarded_running hf, if_pos (clearDue_eq_true.mpr ⟨c, hc, hdue⟩)]

/-- RETAIN does nothing where every clear time is still to come, which holds where there is none. -/
theorem exec_retain_of_not_due {s : State} (hf : s.fault = none)
    (h : ∀ c, s.clearAt.get s.gateTrk = some c → s.now.toNat < c.toNat) : exec .retain s = .next s := by
  have hwait : ¬clearDue s s.gateTrk = true := fun hdue =>
    have ⟨c, hc, hle⟩ := clearDue_eq_true.mp hdue
    (h c hc).not_ge hle
  rw [exec, execRetain, guarded_running hf, if_neg hwait]

theorem exec_retain_of_early {s : State} {c : Time} (hf : s.fault = none) (hc : s.clearAt.get s.gateTrk = some c)
    (hearly : s.now.toNat < c.toNat) : exec .retain s = .next s :=
  exec_retain_of_not_due hf fun _ hc' => Option.some.inj (hc.symm.trans hc') ▸ hearly

theorem exec_retain_of_no_clearAt {s : State} (hf : s.fault = none) (hc : s.clearAt.get s.gateTrk = none) :
    exec .retain s = .next s :=
  exec_retain_of_not_due hf fun _ hc' => absurd (hc.symm.trans hc') nofun

/-- Settles O33. -/
theorem clearAndRetainResults : Obligations.ClearAndRetainResults := by
  intro s hf
  rw [← gateOff_eq]
  exact ⟨exec_clear_running hf, fun _ => exec_retain_of_due hf, fun _ => exec_retain_of_early hf,
    exec_retain_of_no_clearAt hf⟩

/-- Settles O34. -/
theorem reservedGateCommandRaises : Obligations.ReservedGateCommandRaises :=
  ⟨fun _ hf => guarded_running hf _, selectedCmd_ne_reserved⟩

/-! ### The gate's length after a SET (R244, R249) -/

@[simp] theorem gateOn_fault (t : Track) (s : State) : (gateOn t s).fault = s.fault :=
  (congrArg State.fault (gateOn_frame t s).2).trans rfl

@[simp] theorem gateOn_gateTrk (t : Track) (s : State) : (gateOn t s).gateTrk = s.gateTrk :=
  (congrArg State.gateTrk (gateOn_frame t s).2).trans rfl

theorem lfoGate_true_clearAt (t : Track) (s : State) : (lfoGate t true s).clearAt = s.clearAt := by
  rw [lfoGate_true]
  split <;> rfl

theorem gateOn_clearAt_of_inRange {t : Track} {s : State}
    (h : clearSum s.now s.predicted (s.duty.get t) < 2 ^ 64) :
    (gateOn t s).clearAt =
      s.clearAt.set t (some (BitVec.ofNat 64 (clearSum s.now s.predicted (s.duty.get t)))) := by
  rw [gateOn_of_inRange h, lfoGate_true_clearAt]

/-- Half of a predicted interval of 1000 after the SET: the clear time of R249. -/
theorem gateOn_clearAt_dutyScenario {s : State} (hduty : s.duty.get s.gateTrk = 50) (hpred : s.predicted = 1000)
    (hrange : s.now.toNat + 500 < 2 ^ 64) :
    (gateOn s.gateTrk s).clearAt.get s.gateTrk = some (s.now + 500) := by
  have hsum : clearSum s.now s.predicted (s.duty.get s.gateTrk) = s.now.toNat + 500 := by
    rw [hduty, hpred]
    rfl
  rw [gateOn_clearAt_of_inRange (hsum ▸ hrange), hsum, PerTrack.get_set, if_pos rfl, BitVec.ofNat_add,
    BitVec.ofNat_toNat, BitVec.setWidth_eq]
  rfl

/-- Settles O35. The clear time SET records is `n0 + 500`; each RETAIN compares its own pass's `now` with it, and the
one that clears the gate leaves no clear time for those after it. -/
theorem dutyScenario : Obligations.DutyScenario := by
  intro s t hduty hpred hrange hset
  obtain ⟨hf, ⟨⟩⟩ := guarded_eq_next.mp hset
  have hclear := gateOn_clearAt_dutyScenario hduty hpred hrange
  have hfault : (gateOn s.gateTrk s).fault = none := by rw [gateOn_fault, hf]
  have htrk := gateOn_gateTrk s.gateTrk s
  have hserved : (gateOn s.gateTrk s).clearAt.get (gateOn s.gateTrk s).gateTrk = some (s.now + 500) := by
    rw [htrk, hclear]
  have htime : (s.now + 500).toNat = s.now.toNat + 500 := by bv_omega
  refine ⟨by simp, hclear, fun n hn => ?_, fun n hn => ?_⟩
  · exact exec_retain_of_early hfault hserved (hn.trans_eq htime.symm)
  · refine ⟨_, exec_retain_of_due hfault hserved (htime.trans_le hn), ?_⟩
    simp only [gateOff_eq, htrk, PerTrack.get_set, if_true, true_and]
    exact fun m => exec_retain_of_no_clearAt hfault (by simp)

end Sys2Proof.Machine
end

section
/-! Captures of different lines, whichever comes first (spec/60_exceptions.md R269, R271). -/

namespace Sys2Proof.Machine

/-- The capture instruction of a line, with its operand among a clock timestamp and one snapshot for each expander. -/
def lineCapture (ts : Time) (v0 v1 : Snap) : Line → Instr
  | .clk => .clk ts
  | .rst => .rst
  | .exp0 => .exp0 v0
  | .exp1 => .exp1 v1

/-- What the handler of a line does to the state. -/
def lineHandler (ts : Time) (v0 v1 : Snap) : Line → State → State
  | .clk => captureClk ts
  | .rst => captureRst
  | .exp0 => captureExp .e0 v0
  | .exp1 => captureExp .e1 v1

section

variable {ts : Time} {v0 v1 : Snap} {l m : Line} {s t : State}

theorem exec_lineCapture_eq_next :
    exec (lineCapture ts v0 v1 l) s = .next t ↔
      s.fault = none ∧ s.irqPend.get l = true ∧ lineHandler ts v0 v1 l s = t := by
  cases l with
  | clk => exact exec_clk_eq_next
  | rst => exact exec_rst_eq_next
  | exp0 => exact exec_exp0_eq_next
  | exp1 => exact exec_exp1_eq_next

@[simp] theorem lineHandler_fault : (lineHandler ts v0 v1 l s).fault = s.fault := by
  cases l <;> rfl

@[simp] theorem lineHandler_irqPend : (lineHandler ts v0 v1 l s).irqPend = s.irqPend.set l false := by
  cases l <;> rfl

/-- Handlers of different lines write different flags and latch different facts. -/
theorem lineHandler_comm (h : l ≠ m) :
    lineHandler ts v0 v1 l (lineHandler ts v0 v1 m s) = lineHandler ts v0 v1 m (lineHandler ts v0 v1 l s) := by
  cases l with
  | clk => cases m with | clk => exact absurd rfl h | _ => rfl
  | rst => cases m with | rst => exact absurd rfl h | _ => rfl
  | exp0 => cases m with | exp0 => exact absurd rfl h | _ => rfl
  | exp1 => cases m with | exp1 => exact absurd rfl h | _ => rfl

/-- A capture leaves the other lines pending, so the capture of another pending line runs after it. -/
theorem andThen_exec_lineCapture (h : m ≠ l) (hf : s.fault = none) (hl : s.irqPend.get l = true)
    (hm : s.irqPend.get m = true) :
    andThen (exec (lineCapture ts v0 v1 l) s) (exec (lineCapture ts v0 v1 m)) =
      .next (lineHandler ts v0 v1 m (lineHandler ts v0 v1 l s)) := by
  have hfirst : exec (lineCapture ts v0 v1 l) s = .next (lineHandler ts v0 v1 l s) :=
    exec_lineCapture_eq_next.mpr ⟨hf, hl, rfl⟩
  rw [hfirst, andThen]
  exact exec_lineCapture_eq_next.mpr ⟨by simp [hf], by simp [h, hm], rfl⟩

theorem eq_lineCapture_of_mem {a : Line × Instr}
    (h : a ∈ [(Line.clk, Instr.clk ts), (.rst, .rst), (.exp0, .exp0 v0), (.exp1, .exp1 v1)]) :
    a.2 = lineCapture ts v0 v1 a.1 := by
  have hmap : a ∈ [Line.clk, .rst, .exp0, .exp1].map fun l => (l, lineCapture ts v0 v1 l) := h
  obtain ⟨l, -, rfl⟩ := List.mem_map.mp hmap
  rfl

end

/-- Settles O13: both orders run the two handlers, and those commute. -/
theorem capturesOfDifferentLinesCommute : Obligations.CapturesOfDifferentLinesCommute := by
  intro ts v0 v1 s a b ha hb hne hf hpa hpb
  rw [eq_lineCapture_of_mem ha, eq_lineCapture_of_mem hb]
  refine ⟨_, andThen_exec_lineCapture hne.symm hf hpa hpb, ?_⟩
  rw [andThen_exec_lineCapture hne hf hpb hpa, lineHandler_comm hne]

end Sys2Proof.Machine
end

section
/-! A falling edge of a line (spec/60_exceptions.md R267, R268, R270). -/

namespace Sys2Proof.Machine

theorem lineEdge_of_enabled {l : Line} {s : State} (h : s.irqEnabled = true) :
    lineEdge l s = { s with irqPend := s.irqPend.set l true } :=
  if_pos h

theorem lineEdge_of_disabled {l : Line} {s : State} (h : s.irqEnabled = false) : lineEdge l s = s :=
  if_neg (by simp [h])

theorem perLine_set_eq_self {α : Type} {q : PerLine α} {l : Line} {x : α} (h : q.get l = x) : q.set l x = q := by
  subst h
  cases l <;> rfl

/-- An edge while the flag is set changes nothing, whether or not the interrupts are enabled (R268). -/
theorem lineEdge_of_pending {l : Line} {s : State} (h : s.irqPend.get l = true) : lineEdge l s = s := by
  cases hen : s.irqEnabled with
  | false => exact lineEdge_of_disabled hen
  | true => rw [lineEdge_of_enabled hen, perLine_set_eq_self h]

/-- Where the environment's move is an edge, no instruction is fetched and the step is that edge. -/
theorem step_of_edge {s s1 : State} {l : Line} (hf : s.fault = none) (hmove : nextMove s = (.env (.edge l), s1)) :
    step s = .next (lineEdge l s1) := by
  have hfetch : fetch s = none := by simp only [fetch, hmove]
  simp [step, hf, runningStep, hfetch, controlStep, hmove, envStep]

/-- The two places a queued edge is taken from: the head of the list outside a pass, and behind its marker inside
one. -/
theorem nextMove_edge {s : State} {l : Line} {rest : List Stimulus}
    (h : ((s.pos = .idle ∨ s.pos = .boot) ∧ s.stim = .edge l :: rest) ∨
      (s.pos ≠ .idle ∧ s.pos ≠ .boot ∧ s.stim = .preempt :: .edge l :: rest)) :
    nextMove s = (.env (.edge l), { s with stim := rest }) := by
  obtain ⟨hpos, hstim⟩ | ⟨hidle, hboot, hstim⟩ := h
  · refine nextMove_betweenPasses ?_ hstim
    obtain hpos | hpos := hpos <;> rw [hpos] <;> rfl
  · exact nextMove_preempt (midPass_eq_true.mpr ⟨hidle, hboot⟩) rfl hstim

/-- Settles O15. -/
theorem edgeSetsPendingFlag : Obligations.EdgeSetsPendingFlag := by
  intro s l rest hf hqueued
  rw [step_of_edge hf (nextMove_edge hqueued)]
  exact ⟨fun hen => congrArg _ (lineEdge_of_enabled hen), fun hdis => congrArg _ (lineEdge_of_disabled hdis),
    fun hpend => congrArg _ (lineEdge_of_pending hpend)⟩

end Sys2Proof.Machine
end

section
/-! Boot (spec/70_reset_and_hazards.md R292), and the states between passes (R307). -/

namespace Sys2Proof.Machine

/-- Before boot, with the boot next in the list, the step is the boot step. -/
theorem step_boot {s : State} {ok : Bool} {rest : List Stimulus} (hf : s.fault = none) (hpos : s.pos = .boot)
    (hstim : s.stim = .boot ok :: rest) : step s = .next (boot ok { s with stim := rest }) := by
  have hm : midPass s.pos = false := by rw [hpos]; rfl
  have hmove := nextMove_betweenPasses hm hstim
  have hfetch : fetch s = none := by simp only [fetch, hmove]
  simp [step, hf, runningStep, hfetch, controlStep, hmove, envStep, hpos]

/-- Settles O53: a good boot is reset with the agents started, a bad one ends in the fault state. -/
theorem bootStep : Obligations.BootStep := by
  intro s ok rest hf hpos hstim
  rw [step_boot hf hpos hstim]
  refine ⟨fun hok => ?_, fun hbad => ?_⟩
  · subst hok
    rfl
  · subst hbad
    exact ⟨_, rfl, rfl, exec_faulted rfl⟩

/-- Settles O59: each premise is a clause of `Sound`; between passes the queue is empty and no regeneration is owed. -/
theorem statesBetweenPassesAreLegal : Obligations.StatesBetweenPassesAreLegal := by
  intro s hinv hf hpos
  have hsound : Sound s := hinv.resolve_left (by rw [hf]; nofun)
  have hne : s.pos ≠ .update := by rw [hpos]; nofun
  exact ⟨hf, hsound.params, hsound.opqEmpty hf hne, hsound.expq, hsound.dpt (hsound.regenDone hne), hsound.clearAt,
    hsound.gateHigh⟩

end Sys2Proof.Machine
end

section
/-! A capture whose line is not pending (spec/40_capture.md R120 to R123), and the quadrature table
(spec/41_decode.md R148). -/

namespace Sys2Proof.Machine

/-- Behind the fault guard, a line that is not pending refuses whatever would follow. -/
theorem guarded_whenPending_of_clear {s : State} (hf : s.fault = none) (l : Line) (out : Out)
    (hl : s.irqPend.get l = false) : guarded s (whenPending l s out) = .refused (.captureNotPending l) := by
  rw [guarded_running hf, whenPending_of_clear hl]

/-- Settles O12. RSTCLK checks the reset line, and then the clock line. -/
theorem captureWithoutPendingRefused : Obligations.CaptureWithoutPendingRefused := by
  intro ts v s hf
  have refuses := guarded_whenPending_of_clear hf
  refine ⟨refuses .clk _, refuses .rst _, refuses .rst _, fun hrst hclk => ?_, refuses .exp0 _, refuses .exp1 _⟩
  rw [exec, execRstclk, whenPending_of_pending (l := .rst) hrst]
  exact refuses .clk _ hclk

/-- Settles O42, by evaluating the table on its sixteen nibbles. -/
theorem quadratureTable : Obligations.QuadratureTable := by
  unfold Obligations.QuadratureTable
  decide

end Sys2Proof.Machine
end

section
/-! From boot to the first Tick (spec/70_reset_and_hazards.md R294). As for `Sound`, a record `{ h with c := _ }` of
`BeforeFirstTick` proves the clauses an operation writes to, and takes the others from `h`. -/

namespace Sys2Proof.Machine

/-! ### Reset and boot -/

theorem reset_beforeFirstTick : BeforeFirstTick State.reset where
  tickCount := rfl
  tph := PerTrack.get_const 0
  predicted := rfl
  resetArmed := rfl
  phase := PerTrack.get_const 0
  level := PerTrack.get_const false
  gateHigh := PerTrack.get_const false
  clearAt := PerTrack.get_const none
  lastGateIndex := PerTrack.get_const none
  ticked := rfl
  gateCmd := rfl

theorem powerOn_beforeFirstTick (s : State) : BeforeFirstTick (powerOn s) := { reset_beforeFirstTick with }

theorem boot_true_beforeFirstTick (s : State) : BeforeFirstTick (boot true s) := { reset_beforeFirstTick with }

/-! ### Instructions -/

/-- Nothing of what holds before the first Tick is about the capture domain. -/
theorem beforeFirstTick_outsideCapture {s : State} : BeforeFirstTick (outsideCapture s) ↔ BeforeFirstTick s :=
  ⟨fun h => { h with }, fun h => { h with }⟩

/-- Driving a low gate inactive leaves it low. -/
theorem gateOff_beforeFirstTick {s : State} (h : BeforeFirstTick s) (t : Track) : BeforeFirstTick (gateOff t s) := by
  rw [gateOff_eq]
  exact
    { h with
      level := fun k => by simp [h.level k]
      gateHigh := fun k => by simp [h.gateHigh k]
      clearAt := fun k => by simp [h.clearAt k] }

/-- Only TICK and SET end what holds before the first Tick; RESET and a Fate draw arm the restart that is armed. -/
theorem exec_beforeFirstTick {i : Instr} {s t : State} (h : BeforeFirstTick s) (htick : ∀ n, i ≠ .tick n)
    (hset : i ≠ .set) (hs : exec i s = .next t) : BeforeFirstTick t := by
  cases i with
  | tick n => exact absurd rfl (htick n)
  | set => exact absurd rfl hset
  | reset => obtain ⟨-, ⟨⟩⟩ := guarded_eq_next.mp hs; exact { h with resetArmed := rfl }
  | seed d =>
    obtain ⟨-, ⟨⟩⟩ := guarded_eq_next.mp hs
    split
    · exact { h with resetArmed := rfl }
    · dsimp only; split <;> exact { h with }
  | length d =>
    obtain ⟨-, ⟨⟩⟩ := guarded_eq_next.mp hs
    dsimp only; split <;> exact { h with }
  | offset k d | steps k d =>
    obtain ⟨-, ⟨⟩⟩ := guarded_eq_next.mp hs
    split <;> exact { h with }
  | retain =>
    obtain ⟨-, ⟨⟩⟩ := guarded_eq_next.mp hs
    split
    · exact gateOff_beforeFirstTick h _
    · exact h
  | clear => obtain ⟨-, ⟨⟩⟩ := guarded_eq_next.mp hs; exact gateOff_beforeFirstTick h _
  | seedClick | lengthClick | offsetClick k | stepsClick k | gcmdReserved =>
    obtain ⟨-, ⟨⟩⟩ := guarded_eq_next.mp hs
    exact { h with }
  | clk _ | rst | rstclk _ | exp0 _ | exp1 _ =>
    rw [← beforeFirstTick_outsideCapture, outsideCapture_of_exec_capture rfl hs, beforeFirstTick_outsideCapture]
    exact h

/-- A SET is fetched only as the gate command selected for a track. -/
theorem gateCmd_of_fetch_set {s s1 : State} {r : Raw} (hfetch : fetch s = some (r, s1)) (hset : decode r = .ok .set) :
    s.gateCmd = 0b01 := by
  obtain ⟨henc, -⟩ := decodedBitsEncodeBack r _ hset
  obtain ⟨st, k, ⟨_, _, rfl, -⟩ | ⟨_, _, rfl, -⟩ | ⟨rfl, -⟩⟩ := fetch_cases hfetch
  · cases henc
  · cases henc
  · exact (Raw.gcmd.inj henc).symm

theorem fetch_beforeFirstTick {s s1 : State} {r : Raw} (h : BeforeFirstTick s) (hfetch : fetch s = some (r, s1)) :
    BeforeFirstTick s1 := by
  obtain ⟨st, k, ⟨_, _, -, -, rfl⟩ | ⟨_, _, -, -, -, rfl⟩ | ⟨-, -, rfl⟩⟩ := fetch_cases hfetch <;> exact { h with }

/-- A fetched instruction other than a Tick: it is no SET, the gate command being RETAIN. -/
theorem runRaw_beforeFirstTick {s s1 t : State} {r : Raw} (h : BeforeFirstTick s) (hfetch : fetch s = some (r, s1))
    (htick : ∀ n, decode r ≠ .ok (.tick n)) (hrun : runRaw r s1 = .next t) : BeforeFirstTick t := by
  have h1 := fetch_beforeFirstTick h hfetch
  rcases runRaw_cases hrun with ⟨i, hi, -, hexec⟩ | ⟨w, e, -, -, rfl⟩
  · refine exec_beforeFirstTick h1 (fun n hn => htick n (hn ▸ hi)) (fun hset => ?_) hexec
    have hcmd := gateCmd_of_fetch_set hfetch (hset ▸ hi)
    rw [h.gateCmd] at hcmd
    cases hcmd
  · exact { h1 with }

/-! ### The environment's steps -/

theorem beginPass_beforeFirstTick {p : PassInput} {s t : State} (h : BeforeFirstTick s)
    (hs : beginPass p s = .next t) : BeforeFirstTick t := by
  have hd : BeforeFirstTick (drain (dirtyAnswer p s) s) := by
    cases dirtyAnswer p s <;> exact { h with }
  unfold beginPass at hs
  dsimp only at hs
  split at hs
  · cases hs
  · cases hs
    split <;> exact { hd with ticked := rfl }

theorem envStep_beforeFirstTick {x : Stimulus} {s t : State} (h : BeforeFirstTick s) (hs : envStep x s = .next t)
    (ht : t.fault ≠ some .bootConfig) : BeforeFirstTick t := by
  cases x with
  | powerOn => cases hs; exact powerOn_beforeFirstTick s
  | boot ok =>
    simp only [envStep] at hs
    split at hs
    · cases hs
      cases ok with
      | true => exact boot_true_beforeFirstTick s
      | false => exact absurd rfl ht
    · cases hs
  | edge l =>
    cases hs
    unfold lineEdge
    split <;> exact { h with }
  | capture code operand => cases hs
  | pass p =>
    simp only [envStep] at hs
    split at hs
    · cases hs
    · exact beginPass_beforeFirstTick h hs
  | go => cases hs; exact h
  | preempt => cases hs; exact h

/-! ### The lines of a pass -/

/-- Pushing words writes the operation queue and the fault code alone. -/
theorem pushAll_frame (ws : List OpWord) (s : State) : ∃ q f, pushAll ws s = { s with opq := q, fault := f } := by
  induction ws generalizing s with
  | nil => exact ⟨_, _, rfl⟩
  | cons w ws ih =>
    rw [pushAll]
    split
    · exact ⟨_, _, rfl⟩
    · obtain ⟨q, f, hqf⟩ := ih { s with opq := s.opq ++ [w] }
      exact ⟨q, f, hqf⟩

theorem decodeLine_beforeFirstTick {s : State} (h : BeforeFirstTick s) : BeforeFirstTick (decodeLine s) := by
  have hdec : BeforeFirstTick (decodeInputs s).1 := { h with }
  obtain ⟨q, f, hqf⟩ := pushAll_frame (decodeInputs s).2 (decodeInputs s).1
  rw [decodeLine, hqf]
  unfold afterPushes
  split <;> exact { hdec with }

/-- With the playhead at 0 and no prediction, the phase is 0 at any time and for any length (R212). -/
theorem phaseOf_restarted (now last : Time) (dpt : BitVec 32) : phaseOf now last 0 0 dpt = 0 := by
  simp [phaseOf, wrap32]

theorem BeforeFirstTick.phaseOf_eq_zero {s : State} (h : BeforeFirstTick s) (k : Track) (now : Time) :
    phaseOf now s.lastTickTime s.predicted (s.tph.get k) (s.dpt.get k) = 0 := by
  rw [h.predicted, h.tph k, phaseOf_restarted]

/-- The pass agent's lines: the phases are computed to 0, and no gate command but RETAIN is selected. -/
theorem passLine_beforeFirstTick {s : State} (h : BeforeFirstTick s) : BeforeFirstTick (passLine s) := by
  unfold passLine
  cases s.pos with
  | boot | idle | apply => exact h
  | decode => exact decodeLine_beforeFirstTick h
  | update => dsimp only; rw [updateEnd_eq]; exact { h with }
  | time => exact { h with phase := fun k => (timeLine_phase_get s k).trans (h.phaseOf_eq_zero k s.now) }
  | lfo =>
    obtain ⟨o, d, hod⟩ := lfoLine_frame s
    dsimp only
    rw [hod]
    exact { h with }
  | gate t =>
    dsimp only
    rw [gateSelect_of_unmoved (.inl h.ticked)]
    exact { h with gateCmd := rfl }

/-! ### Every step -/

theorem step_running_beforeFirstTick {s t : State} (h : BeforeFirstTick s) (hf : s.fault = none)
    (hstep : step s = .next t) (ht : t.fault ≠ some .bootConfig) (htick : ¬ AppliesTick s) : BeforeFirstTick t := by
  rcases step_cases hf hstep with ⟨r, s1, hfetch, hrun⟩ | ⟨x, s1, hmove, henv⟩ | ⟨s1, -, hmove, rfl⟩
  · exact runRaw_beforeFirstTick h hfetch (fun n hn => htick ⟨hf, r, s1, n, hfetch, hn⟩) hrun
  · obtain ⟨st, k, rfl⟩ := nextMove_eq hmove
    have h1 : BeforeFirstTick { s with stim := st, freeIdx := k } := { h with }
    exact envStep_beforeFirstTick h1 henv ht
  · obtain ⟨st, k, rfl⟩ := nextMove_eq hmove
    have h1 : BeforeFirstTick { s with stim := st, freeIdx := k } := { h with }
    exact passLine_beforeFirstTick h1

theorem step_faulted_beforeFirstTick {s t : State} {c : FaultCode} (h : BeforeFirstTick s) (hf : s.fault = some c)
    (hstep : step s = .next t) : BeforeFirstTick t := by
  rcases step_faulted_cases hf with hs | ⟨rest, -, hs⟩ | ⟨x, rest, -, hs⟩ <;> rw [hs] at hstep <;> cases hstep
  · exact powerOn_beforeFirstTick _
  · exact { h with }

/-! ### The first Tick -/

/-- In a pass that ticked, a track never served gets a SET or a CLEAR (spec/45_gate.md R240). -/
theorem selectedCmd_of_unserved {k : Track} {s : State} (hticked : s.ticked = true)
    (hnone : s.lastGateIndex.get k = none) : selectedCmd k s = 0b01 ∨ selectedCmd k s = 0b10 := by
  have hmoved : s.lastGateIndex.get k ≠ some (s.tph.get k) := by rw [hnone]; nofun
  rw [selectedCmd, if_pos ⟨hticked, hmoved⟩]
  exact ite_eq_or_eq _ _ _

/-- A Tick disarms the restart, marks its pass, and serves no gate. -/
theorem exec_tick_marks {n : Nat} {s t : State} (h : exec (.tick n) s = .next t) :
    t.resetArmed = false ∧ t.ticked = true ∧ t.lastGateIndex = s.lastGateIndex := by
  obtain ⟨-, ⟨⟩⟩ := guarded_eq_next.mp h
  exact ⟨rfl, rfl, rfl⟩

/-- Settles O54: `BeforeFirstTick` is an invariant of every step but a Tick, and the Tick that ends it finds the restart
armed and every track unserved. -/
theorem firstTickAfterBoot : Obligations.FirstTickAfterBoot := by
  refine ⟨boot_true_beforeFirstTick, fun s t h hstep ht htick => ?_, fun s h => h.phaseOf_eq_zero,
    fun n s h hf => ?_⟩
  · cases hf : s.fault with
    | none => exact step_running_beforeFirstTick h hf hstep ht htick
    | some c => exact step_faulted_beforeFirstTick h hf hstep
  · obtain ⟨t, hexec, hgph, -, hcount⟩ := exec_tick_armed hf h.resetArmed n
    obtain ⟨hdisarmed, hticked, hindex⟩ := exec_tick_marks hexec
    refine ⟨t, hexec, hgph, by rw [hcount, h.tickCount]; rfl, hdisarmed, fun k u hu hk => ?_⟩
    exact selectedCmd_of_unserved (hu.trans hticked) (by rw [hk, hindex, h.lastGateIndex k])

end Sys2Proof.Machine
end
